-- ==== Sys2Proof/Word.lean ====
section
/-! DEFINITION. The value types of 00_scope.md section 5: the width parameter, data values, text lines. -/

namespace Sys2Proof

/-- A width parameter: a number of bits, or `∞` (00_scope.md section 4, parameters `W` and `IMM_W`). -/
inductive Width where
  /-- `n` bits, two's complement. -/
  | bits (n : Nat)
  /-- `∞`: unbounded mathematical integers. -/
  | unbounded
  deriving DecidableEq, Repr

/-- A data value, written by the signed integer it stands for ("this spec writes a `Val` by that integer",
00_scope.md section 5). That it lies in the range of `W` is an invariant of the state, not of the type
(DESIGN CHOICE, safe: log entry 9). -/
abbrev Val := Int

/-- A line of text: "a finite sequence of characters" (00_scope.md section 5; log entry 15). -/
abbrev Line := List Char

end Sys2Proof
end

