-- ==== Sys2Proof/Config.lean ====
section
/-! DEFINITION. What is fixed for the machine: the defaults of the parameters of 00_scope.md section 4, and the two free
values, the caller's branch-target function and the memory maps a launch may supply. -/

namespace Sys2Proof

/-- Default of `W` (00_scope.md section 4, decision D1). -/
def Config.defaultWidth : Width := .bits 32

/-- Default of `IMM_W` (00_scope.md section 4, decision D2). -/
def Config.defaultImmWidth : Width := .bits 16

/-- Default of `NREGS` (00_scope.md section 4, decision D3). -/
def Config.defaultNregs : Nat := 32

/-- `SIGIL`, the character that opens a register token: `$`, strictly (R46, decision D14). -/
def Config.sigil : Char := '$'

/-- `BranchTarget : ℕ × Val → ℤ`, "an OPEN parameter of the model ... The spec sets no default" (R131): a free value,
a function of the index of the branch and of its displacement, about which nothing can be proved. The launch may
state its value at chosen points (`State.targets`); log entry 7. -/
opaque Config.branchTarget : Nat → Val → Int

/-- The total launch maps `M0`, "supplied by whoever states a claim" (R123): a family of free values, map `n` giving every
key a number, about which nothing can be proved. A claim about one map names an `n` and takes the map's values as a
premise; a claim without such a premise holds for every map (log entry 8). -/
opaque Config.launchMemory : Nat → Val → Int

end Sys2Proof
end

