-- ==== Sys2Proof/Syntax.lean ====
section
/-! DEFINITION. The closed opcode set, the instructions, and the types that cross the block's interfaces
(10_state.md section 2). -/

namespace Sys2Proof

/-- The closed set of opcodes, in the spec's order (R2, R15). -/
inductive Opcode where
  | add | sub | lw | sw | beq | and | or
  deriving DecidableEq, Repr

/-- The three surface formats (R40): `m` for lw and sw, `r` for add, sub, and, or, `b` for beq. -/
inductive Format where
  | r | m | b
  deriving DecidableEq, Repr

/-- An instruction with its operands in the order in which the text writes them (R41, R42, R43, R64). A register
index is any natural number (R16) and an immediate any integer (R17). One constructor per row of the opcode table. -/
inductive Instr where
  /-- `add rd, rs, rt` -/
  | add (rd rs rt : Nat)
  /-- `sub rd, rs, rt` -/
  | sub (rd rs rt : Nat)
  /-- `lw rt, imm(rs)` -/
  | lw (rt : Nat) (imm : Int) (rs : Nat)
  /-- `sw rt, imm(rs)` -/
  | sw (rt : Nat) (imm : Int) (rs : Nat)
  /-- `beq rs, rt, imm` -/
  | beq (rs rt : Nat) (imm : Int)
  /-- `and rd, rs, rt` -/
  | and (rd rs rt : Nat)
  /-- `or rd, rs, rt` -/
  | or (rd rs rt : Nat)
  deriving DecidableEq, Repr

/-- The Decoded Instruction `DI = (op, ops, imm)` (R18). -/
structure DecodedInstruction where
  op  : Opcode
  ops : List Nat
  imm : Int
  deriving DecidableEq, Repr

/-- The three-valued level of a control signal (R72): `dontCare` is `X`, a value of its own. -/
inductive Tri where
  | zero | one | dontCare
  deriving DecidableEq, Repr

/-- The Control Signal Vector `CV`: seven fields, in the source's order (R19). -/
structure ControlVector where
  regDst   : Tri
  aluSrc   : Tri
  branch   : Tri
  memRead  : Tri
  memWrite : Tri
  regWrite : Tri
  memtoReg : Tri
  deriving DecidableEq, Repr

/-- The same seven signals as the two-level wires of a circuit (R20, R89). -/
structure Levels where
  regDst   : Bool
  aluSrc   : Bool
  branch   : Bool
  memRead  : Bool
  memWrite : Bool
  regWrite : Bool
  memtoReg : Bool
  deriving DecidableEq, Repr

/-- The block's two errors (R140). -/
inductive BlockError where
  /-- Raised by `Parse` only (R142). -/
  | malformedInstruction
  /-- Raised by `Parse`, `Ctl` and `Alu` (R141). -/
  | unknownOpcode
  deriving DecidableEq, Repr

/-- The optional sub-reasons of `MalformedInstruction` (R140), for diagnosis only: no rule depends on one. -/
inductive MalformedReason where
  | tokenCount | badRegisterToken | badImmediateToken
  deriving DecidableEq, Repr

/-- The tagged result of an evaluator: `Num(v)` or `Bool(t)` (10_state.md section 2, R21, decision D20). -/
inductive AluResult where
  | num (v : Val)
  | bool (t : Bool)
  deriving DecidableEq, Repr

/-- The output ports of `Alu` (R21). -/
structure AluPorts where
  result  : Val
  eq      : Bool
  unknown : Bool
  deriving DecidableEq, Repr

/-- The output ports of `Ctl` (R20). -/
structure CtlPorts where
  signals : Levels
  unknown : Bool
  deriving DecidableEq, Repr

end Sys2Proof
end

