-- ==== Sys2Proof/Decode.lean ====
section
/-! DEFINITION. The text front end `Parse` (30_encoding.md), total on any line and refusing by name; the `OPSEL` code
of the `op` port (R60); after them an encoder and the host's view of the opcode table. -/

namespace Sys2Proof

/-! ## Views of an instruction -/

/-- The opcode of an instruction. -/
def Instr.opcode : Instr → Opcode
  | .add _ _ _ => .add
  | .sub _ _ _ => .sub
  | .lw _ _ _ => .lw
  | .sw _ _ _ => .sw
  | .beq _ _ _ => .beq
  | .and _ _ _ => .and
  | .or _ _ _ => .or

/-- The surface format of an opcode (R41, R42, R43). -/
def Opcode.format : Opcode → Format
  | .add => .r
  | .sub => .r
  | .lw => .m
  | .sw => .m
  | .beq => .b
  | .and => .r
  | .or => .r

/-- The operand sequence: `[rs, rt]` for formats M and B (R41, R43), `[rs, rt, rd]` for format R (R42). -/
def Instr.ops : Instr → List Nat
  | .add rd rs rt => [rs, rt, rd]
  | .sub rd rs rt => [rs, rt, rd]
  | .lw rt _ rs => [rs, rt]
  | .sw rt _ rs => [rs, rt]
  | .beq rs rt _ => [rs, rt]
  | .and rd rs rt => [rs, rt, rd]
  | .or rd rs rt => [rs, rt, rd]

/-- The immediate: the literal's own value, and the constant 0 for format R (R41, R42, R43, R53). -/
def Instr.imm : Instr → Int
  | .add _ _ _ => 0
  | .sub _ _ _ => 0
  | .lw _ imm _ => imm
  | .sw _ imm _ => imm
  | .beq _ _ imm => imm
  | .and _ _ _ => 0
  | .or _ _ _ => 0

/-- `rs`, the element `ops[0]` in all three formats (30_encoding.md section 1). -/
def Instr.rs : Instr → Nat
  | .add _ rs _ => rs
  | .sub _ rs _ => rs
  | .lw _ _ rs => rs
  | .sw _ _ rs => rs
  | .beq rs _ _ => rs
  | .and _ rs _ => rs
  | .or _ rs _ => rs

/-- `rt`, the element `ops[1]` in all three formats. -/
def Instr.rt : Instr → Nat
  | .add _ _ rt => rt
  | .sub _ _ rt => rt
  | .lw rt _ _ => rt
  | .sw rt _ _ => rt
  | .beq _ rt _ => rt
  | .and _ _ rt => rt
  | .or _ _ rt => rt

/-- `rd`, the element `ops[2]`: only format R has one. -/
def Instr.rd? : Instr → Option Nat
  | .add rd _ _ => some rd
  | .sub rd _ _ => some rd
  | .lw _ _ _ => none
  | .sw _ _ _ => none
  | .beq _ _ _ => none
  | .and rd _ _ => some rd
  | .or rd _ _ => some rd

/-- The Decoded Instruction that `Parse` returns (R18). -/
def Instr.decoded (i : Instr) : DecodedInstruction :=
  { op := i.opcode, ops := i.ops, imm := i.imm }

/-! ## Tokenising -/

/-- The three punctuation characters (R44). -/
def isPunctuation (c : Char) : Bool := c == ',' || c == '(' || c == ')'

/-- The white-space set `ws`: space, tab, line feed, vertical tab, form feed, carriage return (R45). -/
def isWhitespace (c : Char) : Bool :=
  c.toNat == 0x20 || c.toNat == 0x09 || c.toNat == 0x0A || c.toNat == 0x0B || c.toNat == 0x0C || c.toNat == 0x0D

/-- Every punctuation character is replaced by one space (R44). -/
def replacePunctuation (l : Line) : Line := l.map fun c => if isPunctuation c then ' ' else c

/-- The maximal runs of characters not in `ws`, `run` being the run read so far (R45). -/
def splitRuns : Line → Line → List Line
  | run, [] => if run = [] then [] else [run]
  | run, c :: cs =>
    if isWhitespace c then
      if run = [] then splitRuns [] cs else run :: splitRuns [] cs
    else splitRuns (run ++ [c]) cs

/-- The list `t` of tokens of a line (R44, R45). -/
def tokenize (l : Line) : List Line := splitRuns [] (replacePunctuation l)

/-! ## Token kinds -/

/-- An ASCII digit `0` to `9` (R46, R47). -/
def isDigit (c : Char) : Bool := decide (48 ≤ c.toNat) && decide (c.toNat ≤ 57)

/-- The value of an ASCII digit. -/
def digitValue (c : Char) : Nat := c.toNat - 48

/-- The value of a run of digits read in base ten (R46, R47). -/
def decimalValue (ds : Line) : Nat := ds.foldl (fun n c => 10 * n + digitValue c) 0

/-- One or more ASCII digits and nothing else, read in base ten; none otherwise. -/
def decimal? (ds : Line) : Option Nat :=
  if ds ≠ [] ∧ ds.all isDigit = true then some (decimalValue ds) else none

/-- `Reg(tok)`: the sigil and then a decimal index (R46). -/
def regToken (tok : Line) : Except BlockError Nat :=
  match tok with
  | [] => .error .malformedInstruction
  | c :: ds =>
    if c = Config.sigil then
      match decimal? ds with
      | some n => .ok n
      | none => .error .malformedInstruction
    else .error .malformedInstruction

/-- `Imm(tok)`: an optional sign and then a decimal number (R47). -/
def immToken (tok : Line) : Except BlockError Int :=
  match tok with
  | [] => .error .malformedInstruction
  | c :: ds =>
    if c = '-' then
      match decimal? ds with
      | some n => .ok (-(n : Int))
      | none => .error .malformedInstruction
    else if c = '+' then
      match decimal? ds with
      | some n => .ok (n : Int)
      | none => .error .malformedInstruction
    else
      match decimal? (c :: ds) with
      | some n => .ok (n : Int)
      | none => .error .malformedInstruction

/-- The seven opcodes, in the spec's order (R2). -/
def Opcode.all : List Opcode := [.add, .sub, .lw, .sw, .beq, .and, .or]

/-- The opcode string (R15, R48). -/
def Opcode.name : Opcode → Line
  | .add => ['a', 'd', 'd']
  | .sub => ['s', 'u', 'b']
  | .lw => ['l', 'w']
  | .sw => ['s', 'w']
  | .beq => ['b', 'e', 'q']
  | .and => ['a', 'n', 'd']
  | .or => ['o', 'r']

/-- The opcode token is matched exactly, character for character (R48). -/
def opcodeToken (tok : Line) : Except BlockError Opcode :=
  match Opcode.all.find? (fun o => o.name == tok) with
  | some o => .ok o
  | none => .error .unknownOpcode

/-! ## The parser -/

/-- The extraction rule of an opcode over the three operand tokens, read in text order (R41, R42, R43, R50). -/
def decodeOperands (op : Opcode) (t1 t2 t3 : Line) : Except BlockError Instr :=
  match op with
  | .add => do let rd ← regToken t1; let rs ← regToken t2; let rt ← regToken t3; return .add rd rs rt
  | .sub => do let rd ← regToken t1; let rs ← regToken t2; let rt ← regToken t3; return .sub rd rs rt
  | .lw => do let rt ← regToken t1; let imm ← immToken t2; let rs ← regToken t3; return .lw rt imm rs
  | .sw => do let rt ← regToken t1; let imm ← immToken t2; let rs ← regToken t3; return .sw rt imm rs
  | .beq => do let rs ← regToken t1; let rt ← regToken t2; let imm ← immToken t3; return .beq rs rt imm
  | .and => do let rd ← regToken t1; let rs ← regToken t2; let rt ← regToken t3; return .and rd rs rt
  | .or => do let rd ← regToken t1; let rs ← regToken t2; let rt ← regToken t3; return .or rd rs rt

/-- The checks of `Parse` over the token list, in the order of R50: no token, unknown opcode, token count, operand
tokens (R146). -/
def decodeTokens (t : List Line) : Except BlockError Instr :=
  match t with
  | [] => .error .malformedInstruction
  | t0 :: rest =>
    match opcodeToken t0 with
    | .error e => .error e
    | .ok op =>
      match rest with
      | [t1, t2, t3] => decodeOperands op t1 t2 t3
      | _ => .error .malformedInstruction

/-- The instruction that a line spells, or the error it fails with (R50). -/
def decode (line : Line) : Except BlockError Instr := decodeTokens (tokenize line)

/-- `Parse(line)`: the Decoded Instruction of a line, or the error (R50). -/
def parse (line : Line) : Except BlockError DecodedInstruction := (decode line).map Instr.decoded

/-- The sub-reason of the first operand token that fails, `isReg` saying which of the three is a register token. -/
def badOperand? (toks : List (Bool × Line)) : Option MalformedReason :=
  match toks with
  | [] => none
  | (true, t) :: rest => if (regToken t).toOption.isNone then some .badRegisterToken else badOperand? rest
  | (false, t) :: rest => if (immToken t).toOption.isNone then some .badImmediateToken else badOperand? rest

/-- The optional sub-reason of a `MalformedInstruction` (R140), for diagnosis: none where the line parses or its
opcode is unknown. No other definition of the model reads it (log entry 13). -/
def malformedReason (line : Line) : Option MalformedReason :=
  match tokenize line with
  | [] => some .tokenCount
  | t0 :: rest =>
    match opcodeToken t0 with
    | .error _ => none
    | .ok op =>
      match rest with
      | [t1, t2, t3] =>
        match op.format with
        | .r => badOperand? [(true, t1), (true, t2), (true, t3)]
        | .m => badOperand? [(true, t1), (false, t2), (true, t3)]
        | .b => badOperand? [(true, t1), (true, t2), (false, t3)]
      | _ => some .tokenCount

/-! ## The opcode select code of the `op` port -/

/-- `OPSEL`: the 3-bit code of an opcode (R60). -/
def Opcode.opsel : Opcode → BitVec 3
  | .add => 0b000#3
  | .sub => 0b001#3
  | .lw => 0b010#3
  | .sw => 0b011#3
  | .beq => 0b100#3
  | .and => 0b101#3
  | .or => 0b110#3

/-- The opcode of a 3-bit code; the unassigned code `111` is `UnknownOpcode` (R60, R62). -/
def opcodeOfSelect (code : BitVec 3) : Except BlockError Opcode :=
  match code.toNat with
  | 0 => .ok .add
  | 1 => .ok .sub
  | 2 => .ok .lw
  | 3 => .ok .sw
  | 4 => .ok .beq
  | 5 => .ok .and
  | 6 => .ok .or
  | _ => .error .unknownOpcode

/-! ## The encoder

The spec defines no way from a Decoded Instruction back to text (R65). The encoder is the model's own, the canonical
spelling of R64, used for the round trip and for the host's table words (DESIGN CHOICE: log entry 11). -/

/-- The character of a digit. -/
def digitChar (d : Nat) : Char := Char.ofNat (48 + d)

/-- The decimal digits of a number, without leading zeros, by recursion on a bound of the number of digits. -/
def decimalDigitsFuel : Nat → Nat → Line
  | 0, _ => []
  | fuel + 1, n =>
    if n < 10 then [digitChar n] else decimalDigitsFuel fuel (n / 10) ++ [digitChar (n % 10)]

/-- The decimal digits of a natural number. -/
def decimalDigits (n : Nat) : Line := decimalDigitsFuel (n + 1) n

/-- A register operand, `$n` (R64). -/
def encodeReg (n : Nat) : Line := Config.sigil :: decimalDigits n

/-- An immediate in decimal, with a sign when it is negative (R64). -/
def encodeImm (n : Int) : Line :=
  match n with
  | .ofNat m => decimalDigits m
  | .negSucc m => '-' :: decimalDigits (m + 1)

/-- The separator of two operands. -/
def commaSpace : Line := [',', ' ']

/-- Three operands separated by commas, after the opcode (formats R and B of R64). -/
def encodeList (op : Opcode) (a b c : Line) : Line :=
  op.name ++ ' ' :: (a ++ commaSpace ++ b ++ commaSpace ++ c)

/-- `op rt, imm(rs)` (format M of R64). -/
def encodeMem (op : Opcode) (rt : Nat) (imm : Int) (rs : Nat) : Line :=
  op.name ++ ' ' :: (encodeReg rt ++ commaSpace ++ encodeImm imm ++ '(' :: (encodeReg rs ++ [')']))

/-- The canonical line of an instruction. -/
def encode : Instr → Line
  | .add rd rs rt => encodeList .add (encodeReg rd) (encodeReg rs) (encodeReg rt)
  | .sub rd rs rt => encodeList .sub (encodeReg rd) (encodeReg rs) (encodeReg rt)
  | .lw rt imm rs => encodeMem .lw rt imm rs
  | .sw rt imm rs => encodeMem .sw rt imm rs
  | .beq rs rt imm => encodeList .beq (encodeReg rs) (encodeReg rt) (encodeImm imm)
  | .and rd rs rt => encodeList .and (encodeReg rd) (encodeReg rs) (encodeReg rt)
  | .or rd rs rt => encodeList .or (encodeReg rd) (encodeReg rs) (encodeReg rt)

/-! ## The opcode table's words

The table gives a row only its `OPSEL` code; registers and immediate "travel beside `op`" (R61). A table word stands
for the line of its opcode with every operand zero (DESIGN CHOICE: log entry 10). -/

/-- The instruction of an opcode with every operand zero. -/
def Opcode.zeroOperands : Opcode → Instr
  | .add => .add 0 0 0
  | .sub => .sub 0 0 0
  | .lw => .lw 0 0 0
  | .sw => .sw 0 0 0
  | .beq => .beq 0 0 0
  | .and => .and 0 0 0
  | .or => .or 0 0 0

/-- The line that a table word stands for: that of its opcode with every operand zero, and for a word that is no
assigned 3-bit code the word's own decimal digits, a line whose first token is no opcode. -/
def lineOfTableWord (nbits w : Nat) : Line :=
  let v := w % 2 ^ nbits
  if v < 8 then
    match opcodeOfSelect (BitVec.ofNat 3 v) with
    | .ok op => encode op.zeroOperands
    | .error _ => decimalDigits v
  else decimalDigits v

/-- The instruction that the decoder reads from the line of a table word. -/
def decodeTableWord (nbits w : Nat) : Option Instr := (decode (lineOfTableWord nbits w)).toOption

end Sys2Proof
end

