-- ==== Sys2Proof/Machine/Arith.lean ====
section
/-! DEFINITION. Integer arithmetic of 00_scope.md section 5: wrapping, ranges, bits, bitwise AND and OR. -/

namespace Sys2Proof

/-- `wrap_W(n)`: for a finite width the unique integer of the range congruent to `n` modulo `2^W`, for `∞` the
integer itself (00_scope.md section 5). -/
def Width.wrap (w : Width) (n : Int) : Val :=
  match w with
  | .bits k => n.bmod (2 ^ k)
  | .unbounded => n

/-- Whether an integer lies in the two's complement range `[-2^(W-1), 2^(W-1) - 1]` (00_scope.md section 5). -/
def Width.inRange (w : Width) (n : Int) : Bool :=
  match w with
  | .bits k => decide (-((2 ^ (k - 1) : Nat) : Int) ≤ n) && decide (n ≤ ((2 ^ (k - 1) : Nat) : Int) - 1)
  | .unbounded => true

/-- `bit_i(n) = floor(n / 2^i) mod 2` (00_scope.md section 5); the divisor is positive, so `/` rounds down. -/
def bitOf (i : Nat) (n : Int) : Int := n / ((2 ^ i : Nat) : Int) % 2

/-- The bits of `m` that are not bits of `n`. -/
def natAndNot (m n : Nat) : Nat := m ^^^ (m &&& n)

/-- `a AND b` on the infinite two's complement expansions (R104); `-(m + 1)` is the complement of `m`. -/
def bitAnd (a b : Int) : Int :=
  match a, b with
  | .ofNat m, .ofNat n => .ofNat (m &&& n)
  | .ofNat m, .negSucc n => .ofNat (natAndNot m n)
  | .negSucc m, .ofNat n => .ofNat (natAndNot n m)
  | .negSucc m, .negSucc n => .negSucc (m ||| n)

/-- `a OR b` on the infinite two's complement expansions (R105). -/
def bitOr (a b : Int) : Int :=
  match a, b with
  | .ofNat m, .ofNat n => .ofNat (m ||| n)
  | .ofNat m, .negSucc n => .negSucc (natAndNot n m)
  | .negSucc m, .ofNat n => .negSucc (natAndNot m n)
  | .negSucc m, .negSucc n => .negSucc (m &&& n)

end Sys2Proof
end

