-- ==== Sys2Proof/Machine/Flags.lean ====
section
/-! DEFINITION. The machine has no flag and no condition code (R13): no evaluator sets one. The only condition is the
boolean that `beq` returns, an output of one call that is not stored (R13, R116). -/

namespace Sys2Proof.Machine

/-- `a == b` of `beq`: the two values are the same integer (R116). -/
def valuesEqual (a b : Val) : Bool := decide (a = b)

end Sys2Proof.Machine
end

