-- ==== Sys2Proof/Machine/Alu.lean ====
section
/-! DEFINITION. The Operation Evaluator `Alu`: one pure function per opcode (41_alu_rtype.md, 42_alu_address.md,
43_alu_compare.md), and its ports. -/

namespace Sys2Proof.Machine

/-- `add(a, b)` (R101). -/
def evalAdd (w : Width) (a b : Val) : AluResult := .num (w.wrap (a + b))

/-- `sub(a, b)`: the first operand is the minuend (R102). -/
def evalSub (w : Width) (a b : Val) : AluResult := .num (w.wrap (a - b))

/-- The effective address (R112). -/
def effectiveAddress (w : Width) (base offset : Val) : Val := w.wrap (base + offset)

/-- `lw(base, offset)`: the effective address, nothing more (R110). -/
def evalLw (w : Width) (base offset : Val) : AluResult := .num (effectiveAddress w base offset)

/-- `sw(base, offset)`: the effective address, nothing more (R111). -/
def evalSw (w : Width) (base offset : Val) : AluResult := .num (effectiveAddress w base offset)

/-- `beq(a, b)` (R116). -/
def evalBeq (a b : Val) : AluResult := .bool (valuesEqual a b)

/-- `and(a, b)`: never needs wrapping (R104, R106). -/
def evalAnd (a b : Val) : AluResult := .num (bitAnd a b)

/-- `or(a, b)`: never needs wrapping (R105, R106). -/
def evalOr (a b : Val) : AluResult := .num (bitOr a b)

/-- `Alu(op, a, b)` on an opcode of the closed set (R100). -/
def alu (w : Width) (op : Opcode) (a b : Val) : AluResult :=
  match op with
  | .add => evalAdd w a b
  | .sub => evalSub w a b
  | .lw => evalLw w a b
  | .sw => evalSw w a b
  | .beq => evalBeq a b
  | .and => evalAnd a b
  | .or => evalOr a b

/-- `Alu` at its port: `UnknownOpcode` on code `111`, and no result then (R21, R141). -/
def aluPort (w : Width) (code : BitVec 3) (a b : Val) : Except BlockError AluResult :=
  (opcodeOfSelect code).map fun op => alu w op a b

/-- The numeric component of a result. -/
def num? : AluResult → Option Val
  | .num v => some v
  | .bool _ => none

/-- The output wires of `Alu` (R21), with the values of `free` on the wires that carry no meaning: a model gives them no
value, so every statement quantifies over `free` (log entry 12). -/
def aluCircuit (free : AluPorts) (w : Width) (code : BitVec 3) (a b : Val) : AluPorts :=
  match aluPort w code a b with
  | .ok (.num v) => { result := v, eq := free.eq, unknown := false }
  | .ok (.bool t) => { result := free.result, eq := t, unknown := false }
  | .error _ => { result := free.result, eq := free.eq, unknown := true }

end Sys2Proof.Machine
end

