-- ==== Sys2Proof/Machine/Control.lean ====
section
/-! DEFINITION. The control-signal lookup `Ctl` (40_control_lookup.md): the table of seven rows, the `op` port, and the
two-level circuits that implement it. -/

namespace Sys2Proof.Machine

/-- The row shared by the four R-format opcodes (R80, R81, R85, R86). -/
def rFormatRow : ControlVector :=
  { regDst := .one, aluSrc := .zero, branch := .zero, memRead := .zero, memWrite := .zero, regWrite := .one,
    memtoReg := .zero }

/-- The row of `lw` (R82). -/
def lwRow : ControlVector :=
  { regDst := .zero, aluSrc := .one, branch := .zero, memRead := .one, memWrite := .zero, regWrite := .one,
    memtoReg := .one }

/-- The row of `sw` (R83). -/
def swRow : ControlVector :=
  { regDst := .dontCare, aluSrc := .one, branch := .zero, memRead := .zero, memWrite := .one, regWrite := .zero,
    memtoReg := .dontCare }

/-- The row of `beq` (R84). -/
def beqRow : ControlVector :=
  { regDst := .dontCare, aluSrc := .zero, branch := .one, memRead := .zero, memWrite := .zero, regWrite := .zero,
    memtoReg := .dontCare }

/-- `Ctl(op)`: the constant table (R70, R80 to R86). -/
def ctl : Opcode → ControlVector
  | .add => rFormatRow
  | .sub => rFormatRow
  | .lw => lwRow
  | .sw => swRow
  | .beq => beqRow
  | .and => rFormatRow
  | .or => rFormatRow

/-- `Ctl` at its port: the row of an assigned code, `UnknownOpcode` on code `111` and no vector then (R20, R88). -/
def ctlPort (code : BitVec 3) : Except BlockError ControlVector := (opcodeOfSelect code).map ctl

/-! ## Two-level circuits -/

/-- A level refines a table cell: a concrete cell fixes it, an `X` does not (R89). -/
def Tri.refinedBy (t : Tri) (level : Bool) : Bool :=
  match t with
  | .zero => !level
  | .one => level
  | .dontCare => true

/-- A two-level vector refines a row when each of its seven levels refines the row's cell (R89). -/
def refines (v : Levels) (r : ControlVector) : Bool :=
  Tri.refinedBy r.regDst v.regDst && Tri.refinedBy r.aluSrc v.aluSrc && Tri.refinedBy r.branch v.branch &&
  Tri.refinedBy r.memRead v.memRead && Tri.refinedBy r.memWrite v.memWrite &&
  Tri.refinedBy r.regWrite v.regWrite && Tri.refinedBy r.memtoReg v.memtoReg

/-- A level as a signal value. -/
def Tri.ofLevel (level : Bool) : Tri := if level then .one else .zero

/-- A two-level vector as a vector without `X`. -/
def vectorOfLevels (v : Levels) : ControlVector :=
  { regDst := Tri.ofLevel v.regDst, aluSrc := Tri.ofLevel v.aluSrc, branch := Tri.ofLevel v.branch,
    memRead := Tri.ofLevel v.memRead, memWrite := Tri.ofLevel v.memWrite, regWrite := Tri.ofLevel v.regWrite,
    memtoReg := Tri.ofLevel v.memtoReg }

/-- `m(k)`: `op` equals the code `k` (R92). -/
def codeIs (code : BitVec 3) (k : Nat) : Bool := code.toNat == k

/-- The circuit of R92 over the bits of `op`, with the levels of `free` on the wires the rule leaves free: a model does
not fix them (R89), so every statement quantifies over `free` (log entry 12). -/
def ctlCircuit (free : Levels) (code : BitVec 3) : CtlPorts :=
  let m := codeIs code
  let signals : Levels :=
    if m 7 then free
    else
      { branch := m 4
        memRead := m 2
        memWrite := m 3
        aluSrc := m 2 || m 3
        regWrite := m 0 || m 1 || m 2 || m 5 || m 6
        regDst := if m 3 || m 4 then free.regDst else m 0 || m 1 || m 5 || m 6
        memtoReg := if m 3 || m 4 then free.memtoReg else m 2 }
  { signals := signals, unknown := m 7 }

end Sys2Proof.Machine
end

