-- ==== Sys2Proof/Machine/State.lean ====
section
/-! DEFINITION. The state of the reference caller (44_caller_composition.md section 2), its faults, and the launch
state. The block itself has no state (R10). -/

namespace Sys2Proof.Machine

/-- Why the machine stops (R132, R133). The stopped state is the state the step was taken in: a fault changes no state. -/
inductive Fault where
  /-- `ParseError(e)`: `Parse` raises `e` on the line at the pc (R133). Raised by `fetch`. Safe: the spec's own fault. -/
  | parseError (e : BlockError)
  /-- An operand index is not below `NREGS` (R127). Raised by `datapath`. Safe: the spec's own fault. -/
  | registerIndexOutOfRange
  /-- The immediate is outside the range of `IMM_W` (R125). Raised by `datapath`. Safe: the spec's own fault. -/
  | immediateOutOfRange
  /-- A taken branch leads to a negative index or past `len(prog)` (R131); raised by `pcStage`. Also raised by `fetch`
  where the pc is already past `len(prog)`, which no run reaches (log entry 5). Safe. -/
  | pcOutOfRange
  /-- Not a fault of the spec: the answer `final` of Step, `pc = len(prog)` (R132). Raised by `fetch`. Safe: the run has
  ended and there is no next state (log entry 4). -/
  | endOfRun
  deriving DecidableEq, Repr

/-- Why an instruction has no meaning. Every instruction of this model has one, so nothing raises it. -/
inductive Refusal where
  /-- An instruction of the table whose meaning is not written yet; safe. No arm of `exec` raises it. -/
  | notModelled (mnemonic : String)
  deriving DecidableEq, Repr

/-- One point at which the launch states the parameter `BranchTarget`: its value at index `pc` and displacement `disp`
is `target` (R131, R161; log entry 7). -/
structure BranchPoint where
  pc     : Nat
  disp   : Val
  target : Int
  deriving DecidableEq, Repr

/-- What the keys hold that data memory does not list: the part of the total launch map `M0` (R123) that no list can
write down (log entry 8). -/
inductive MemoryBase where
  /-- The same value at every key. -/
  | constant (v : Val)
  /-- The launch map number `n` of `Config.launchMemory`: any total map at all. -/
  | supplied (n : Nat)
  deriving DecidableEq, Repr

/-- Data memory `M` (R126) over a `MemoryBase`: the keys whose value differs from what the base gives them, strictly
rising, each with its value (log entries 2 and 8). -/
abbrev Memory := List (Val × Val)

/-- The state of the reference caller `(x, M, pc)` (R123) with the parameters of the run that the launch supplies
(R161). `NREGS` is the length of `regs`. No instruction changes `width`, `immWidth`, `prog`, `targets`, `memBase`. -/
structure State where
  /-- `W` (00_scope.md section 4). -/
  width    : Width
  /-- `IMM_W` (00_scope.md section 4). -/
  immWidth : Width
  /-- The program `prog` (R121). -/
  prog     : List Line
  /-- What the launch states of `BranchTarget` (R131). -/
  targets  : List BranchPoint
  /-- The register file `x` (R123). -/
  regs     : List Val
  /-- What the keys that `mem` does not list hold, as the launch supplies it (R123, R161). -/
  memBase  : MemoryBase
  /-- The data memory `M` (R126). -/
  mem      : Memory
  /-- The program counter (R122). -/
  pc       : Nat
  deriving DecidableEq, Repr

/-- The launch state `(x0, M0, pc = 0)` with everything the launch supplies (R123, R161). `M0` is the base `memBase` with
the cells of `mem` in front of it. -/
def State.launch (width immWidth : Width) (prog : List Line) (targets : List BranchPoint) (regs : List Val)
    (memBase : MemoryBase) (mem : Memory) : State :=
  { width := width, immWidth := immWidth, prog := prog, targets := targets, regs := regs, memBase := memBase, mem := mem,
    pc := 0 }

/-- The machine before anything is loaded: the launch with the default parameters, no program, and every register and
memory key 0. `pc = 0` is R122 and the parameters are the defaults of 00_scope.md section 4; the rest is a
DESIGN CHOICE (log entries 1 and 2). -/
def State.reset : State :=
  State.launch Config.defaultWidth Config.defaultImmWidth [] [] (List.replicate Config.defaultNregs 0) (.constant 0) []

end Sys2Proof.Machine
end

