-- ==== Sys2Proof/Machine/Ops.lean ====
section
/-! DEFINITION. The named operations over registers, memory, the pc and the program. There is no exception entry and no
return from one to write here (R148, R149): an error of the block makes the caller stop (R133). -/

namespace Sys2Proof.Machine

/-! ## Registers -/

/-- `NREGS` (R123). -/
def State.nregs (s : State) : Nat := s.regs.length

/-- `x[r]` (R123). Every index read has passed the check of R127, so the 0 past the end is never read. -/
def State.readReg (s : State) (r : Nat) : Val := s.regs.getD r 0

/-- `x[r] <- v`: no register is hardwired (R123). -/
def State.writeReg (s : State) (r : Nat) (v : Val) : State := { s with regs := s.regs.set r v }

/-! ## Data memory -/

/-- What key `k` holds when it is not listed, for a base of the launch (R123). A supplied map gives an integer, and the
`Val` is its value wrapped to `W`, the integer itself for `W = ∞` (log entries 2 and 8). -/
def Memory.unlisted (w : Width) (b : MemoryBase) (k : Val) : Val :=
  match b with
  | .constant v => v
  | .supplied n => w.wrap (Config.launchMemory n k)

/-- `MemRead(k, 1)`: the whole value at key `k` (R126), `u` giving what unlisted keys hold. -/
def Memory.read (u : Val → Val) (m : Memory) (k : Val) : Val :=
  match m with
  | [] => u k
  | c :: m => if k = c.1 then c.2 else Memory.read u m k

/-- A cell in front of a list, unless it holds what its key holds unlisted. -/
def Memory.consCell (u : Val → Val) (k v : Val) (m : Memory) : Memory := if v = u k then m else (k, v) :: m

/-- `MemWrite(k, 1, v)`: `M[k]` becomes `v`, every other key stays (R126). Keeps the canonical form. -/
def Memory.write (u : Val → Val) (m : Memory) (k v : Val) : Memory :=
  match m with
  | [] => Memory.consCell u k v []
  | c :: m =>
    if k < c.1 then Memory.consCell u k v (c :: m)
    else if k = c.1 then Memory.consCell u k v m
    else c :: Memory.write u m k v

/-- The canonical form: keys strictly rising, and no cell that holds what its key holds unlisted. -/
def Memory.wf (u : Val → Val) (m : Memory) : Bool :=
  match m with
  | [] => true
  | c :: m => c.2 != u c.1 && m.all (fun d => decide (c.1 < d.1)) && Memory.wf u m

/-- What a key of this state holds when it is not listed. No step changes it. -/
def State.unlisted (s : State) : Val → Val := Memory.unlisted s.width s.memBase

/-- `MemRead(k, 1)` of the caller (R126). -/
def State.memRead (s : State) (k : Val) : Val := Memory.read s.unlisted s.mem k

/-- `MemWrite(k, 1, v)` of the caller (R126). -/
def State.memWrite (s : State) (k v : Val) : State := { s with mem := Memory.write s.unlisted s.mem k v }

/-! ## The program counter -/

/-- `pc <- pc + 1` (R131). -/
def State.advance (s : State) : State := { s with pc := s.pc + 1 }

/-- `BranchTarget(pc, iv)` (R131): the value the launch states at that point, else the free constant (log entry 7). -/
def State.branchTarget (s : State) (pc : Nat) (iv : Val) : Int :=
  match s.targets.find? (fun p => p.pc == pc && p.disp == iv) with
  | some p => p.target
  | none => Config.branchTarget pc iv

/-- `pc <- n` for a taken branch, or `PcOutOfRange` where `n < 0` or `n > len(prog)` (R131). -/
def State.jump (s : State) (n : Int) : Host.Outcome State Fault Refusal :=
  if n < 0 ∨ (s.prog.length : Int) < n then .fault .pcOutOfRange else .next { s with pc := n.toNat }

/-! ## The program -/

/-- The first lines of Step (R129): `final` where `pc = len(prog)` (R132), else the instruction that `prog[pc]` spells
or its parse error (R133). Past `len(prog)`, where no run stands, it faults (log entry 5). -/
def State.fetch (s : State) : Except Fault Instr :=
  match s.prog[s.pc]? with
  | none => .error (if s.pc = s.prog.length then .endOfRun else .pcOutOfRange)
  | some line =>
    match decode line with
    | .error e => .error (.parseError e)
    | .ok i => .ok i

/-- The program with `line` as the line of index `n`; a shorter program is filled up with empty lines. -/
def placeLine (prog : List Line) (n : Nat) (line : Line) : List Line :=
  if n < prog.length then prog.set n line else prog ++ List.replicate (n - prog.length) [] ++ [line]

/-- The state with `line` where the next instruction is fetched: a load from outside the machine (log entry 3). -/
def State.loadLine (s : State) (line : Line) : State := { s with prog := placeLine s.prog s.pc line }

end Sys2Proof.Machine
end

