-- ==== Sys2Proof/WellFormed.lean ====
section
/-! DEFINITION. Checks. For the block every instruction is well formed (R52, R62); what is checked is the shape of a
Decoded Instruction (R18), what the caller accepts (R125, R127) and the parameters (00_scope.md section 4). -/

namespace Sys2Proof

/-- The length of the operand sequence of a format: 3 for R, 2 for M and B (R18). -/
def Format.operandCount : Format → Nat
  | .r => 3
  | .m => 2
  | .b => 2

/-- The shape of a Decoded Instruction: as many operands as its format has, and the immediate 0 where the format has
none (R17, R18). -/
def DecodedInstruction.wellFormed (d : DecodedInstruction) : Bool :=
  d.ops.length == d.op.format.operandCount && (d.op.format != .r || d.imm == 0)

/-- Every register index is one the caller has (R127). -/
def Instr.indicesBelow (nregs : Nat) (i : Instr) : Bool := i.ops.all fun r => decide (r < nregs)

/-- The immediate is in the range the caller accepts; the constant 0 of format R is not checked (R125). -/
def Instr.immAccepted (immWidth : Width) (i : Instr) : Bool :=
  i.opcode.format == .r || immWidth.inRange i.imm

/-- The caller accepts the instruction: it passes the two checks that precede every effect (R125, R127). -/
def Instr.wellFormed (nregs : Nat) (immWidth : Width) (i : Instr) : Bool :=
  i.indicesBelow nregs && i.immAccepted immWidth

/-- A width is a positive number of bits, or `∞` (00_scope.md section 4). -/
def Width.wellFormed : Width → Bool
  | .bits n => decide (1 ≤ n)
  | .unbounded => true

/-- `1 ≤ IMM_W ≤ W`, or `IMM_W = ∞` when `W = ∞` (00_scope.md section 4, decision D2). -/
def immWidthFits (immWidth width : Width) : Bool :=
  match immWidth, width with
  | .bits m, .bits n => decide (1 ≤ m) && decide (m ≤ n)
  | .bits m, .unbounded => decide (1 ≤ m)
  | .unbounded, .bits _ => false
  | .unbounded, .unbounded => true

/-- The three parameters of a launch (00_scope.md section 4, R161): `NREGS` is a positive integer. -/
def parametersWellFormed (width immWidth : Width) (nregs : Nat) : Bool :=
  width.wellFormed && immWidthFits immWidth width && decide (1 ≤ nregs)

end Sys2Proof
end

