-- ==== Sys2Proof/Machine/Operands.lean ====
section
/-! DEFINITION. Operand binding of the reference caller (44_caller_composition.md section 3): the register index check,
the conversion of the immediate, and which value each datapath role takes. -/

namespace Sys2Proof.Machine

/-- The check of R127: every element of `ops` is below `NREGS`. -/
def indicesInRange (i : Instr) (s : State) : Bool := i.indicesBelow s.nregs

/-- `ImmVal(imm)` (R125): the value with the same integer, or the fault; never wrapped. -/
def immVal (immWidth : Width) (imm : Int) : Except Fault Val :=
  if immWidth.inRange imm then .ok imm else .error .immediateOutOfRange

/-- The immediate phase of Step: `ImmVal` for formats M and B, the constant 0 unchecked for format R (R125, R129). -/
def takeImmediate (i : Instr) (s : State) : Except Fault Val :=
  match i.opcode.format with
  | .r => .ok 0
  | .m => immVal s.immWidth i.imm
  | .b => immVal s.immWidth i.imm

/-- The first `Alu` operand: register `rs`, always (R124). -/
def operandA (i : Instr) (s : State) : Val := s.readReg i.rs

/-- The second `Alu` operand: the immediate if `ALUSrc = 1`, else register `rt` (R74, R124). -/
def operandB (cv : ControlVector) (i : Instr) (iv : Val) (s : State) : Val :=
  if cv.aluSrc = .one then iv else s.readReg i.rt

/-- The value a store writes: register `rt` (R77, R124). -/
def storeValue (i : Instr) (s : State) : Val := s.readReg i.rt

/-- The destination register: `rd` if `RegDst = 1`, else `rt` (R73, R124). None where `RegDst = 1` and the format has no
`rd`, which no row of the table asks for (log entry 14). -/
def destination (cv : ControlVector) (i : Instr) : Option Nat :=
  if cv.regDst = .one then i.rd? else some i.rt

end Sys2Proof.Machine
end

