-- ==== Sys2Proof/Machine/Datapath.lean ====
section
/-! DEFINITION. The step of the reference caller after `Parse` (R129): the phases over a control vector. A stage reads a
signal only where R129 does, so an `X` is never consulted on a row of the table (R130). All reads precede all
writes (R128). -/

namespace Sys2Proof.Machine

/-- `if cv.MemRead = 1 : m <- MemRead(v, 1)`, `v` being the address in the `Alu` result (R76, R129). -/
def memoryReadStage (cv : ControlVector) (r : AluResult) (s : State) : Option Val :=
  if cv.memRead = .one then (num? r).map s.memRead else none

/-- `if cv.MemWrite = 1 : MemWrite(v, 1, st)` (R77, R129). -/
def storeStage (cv : ControlVector) (r : AluResult) (st : Val) (s : State) : State :=
  if cv.memWrite = .one then
    match num? r with
    | some v => s.memWrite v st
    | none => s
  else s

/-- `w <- if cv.MemtoReg = 1 then m else v` (R79, R129). -/
def writeBackValue (cv : ControlVector) (r : AluResult) (m : Option Val) : Option Val :=
  if cv.memtoReg = .one then m else num? r

/-- `if cv.RegWrite = 1 : x[d] <- w` (R78, R129). Where a vector that is no row of the table names a destination or a
value that does not exist, nothing is written (log entry 14). -/
def writeBackStage (cv : ControlVector) (d : Option Nat) (w : Option Val) (s : State) : State :=
  if cv.regWrite = .one then
    match d, w with
    | some d, some w => s.writeReg d w
    | some _, none => s
    | none, some _ => s
    | none, none => s
  else s

/-- The branch is taken: `Branch = 1` and the result is `Bool(true)` (R75, R117). -/
def branchTaken (cv : ControlVector) (r : AluResult) : Bool := decide (cv.branch = .one ∧ r = .bool true)

/-- The last lines of Step: the pc of a taken branch, else `pc + 1` (R131). -/
def pcStage (cv : ControlVector) (r : AluResult) (iv : Val) (s : State) : Host.Outcome State Fault Refusal :=
  if branchTaken cv r then s.jump (s.branchTarget s.pc iv) else .next s.advance

/-- Step after `Parse`, over a control vector (R129): index check, immediate, operands, `Alu`, memory read, memory
write, register write, pc. -/
def datapath (cv : ControlVector) (i : Instr) (s : State) : Host.Outcome State Fault Refusal :=
  if indicesInRange i s then
    match takeImmediate i s with
    | .error f => .fault f
    | .ok iv =>
      let r := alu s.width i.opcode (operandA i s) (operandB cv i iv s)
      let m := memoryReadStage cv r s
      let st := storeValue i s
      pcStage cv r iv (writeBackStage cv (destination cv i) (writeBackValue cv r m) (storeStage cv r st s))
  else .fault .registerIndexOutOfRange

/-- Step after `Parse` with the vector that `Ctl` gives for the opcode (R120, R129). -/
def runInstr (i : Instr) (s : State) : Host.Outcome State Fault Refusal := datapath (ctl i.opcode) i s

end Sys2Proof.Machine
end

