-- ==== Sys2Proof/Machine/Branch.lean ====
section
/-! DEFINITION. The meaning of `beq` (R116, R117, R134). -/

namespace Sys2Proof.Machine

/-- `beq rs, rt, imm`: if `x[rs] == x[rt]` then `pc <- BranchTarget(pc, ImmVal(imm))` else `pc <- pc + 1`
(R116, R131, R134). -/
def execBeq (rs rt : Nat) (imm : Int) (s : State) : Host.Outcome State Fault Refusal := runInstr (.beq rs rt imm) s

end Sys2Proof.Machine
end

