-- ==== Sys2Proof/Machine/MemFormat.lean ====
section
/-! DEFINITION. The meanings of the memory-access instructions (R110, R111, R134). -/

namespace Sys2Proof.Machine

/-- `lw rt, imm(rs)`: `x[rt] <- MemRead(wrap_W(x[rs] + ImmVal(imm)), 1)` (R110, R134). -/
def execLw (rt : Nat) (imm : Int) (rs : Nat) (s : State) : Host.Outcome State Fault Refusal :=
  runInstr (.lw rt imm rs) s

/-- `sw rt, imm(rs)`: `MemWrite(wrap_W(x[rs] + ImmVal(imm)), 1, x[rt])` (R111, R134). -/
def execSw (rt : Nat) (imm : Int) (rs : Nat) (s : State) : Host.Outcome State Fault Refusal :=
  runInstr (.sw rt imm rs) s

/-- The key that `lw` and `sw` access, with `base` the value of register `rs` and `imm` in the accepted range
(R112, R125). -/
def accessKey (s : State) (imm : Int) (rs : Nat) : Val := effectiveAddress s.width (s.readReg rs) imm

end Sys2Proof.Machine
end

