-- ==== Sys2Proof/Machine/RFormat.lean ====
section
/-! DEFINITION. The meanings of the R-format instructions (R101, R102, R104, R105, R134). -/

namespace Sys2Proof.Machine

/-- `add rd, rs, rt`: `x[rd] <- wrap_W(x[rs] + x[rt])` (R101, R134). -/
def execAdd (rd rs rt : Nat) (s : State) : Host.Outcome State Fault Refusal := runInstr (.add rd rs rt) s

/-- `sub rd, rs, rt`: `x[rd] <- wrap_W(x[rs] - x[rt])` (R102, R134). -/
def execSub (rd rs rt : Nat) (s : State) : Host.Outcome State Fault Refusal := runInstr (.sub rd rs rt) s

/-- `and rd, rs, rt`: `x[rd] <- x[rs] AND x[rt]` (R104, R134). -/
def execAnd (rd rs rt : Nat) (s : State) : Host.Outcome State Fault Refusal := runInstr (.and rd rs rt) s

/-- `or rd, rs, rt`: `x[rd] <- x[rs] OR x[rt]` (R105, R134). -/
def execOr (rd rs rt : Nat) (s : State) : Host.Outcome State Fault Refusal := runInstr (.or rd rs rt) s

end Sys2Proof.Machine
end

