-- ==== Sys2Proof/Machine/Step.lean ====
section
/-! DEFINITION. One step of the reference caller (R129), and the host's way of placing one instruction. -/

namespace Sys2Proof.Machine

/-- `Step(prog, (x, M, pc))`: fetch and parse the line at the pc, then run it (R129). -/
def step (s : State) : Host.Outcome State Fault Refusal :=
  match s.fetch with
  | .error f => .fault f
  | .ok i => exec i s

/-- The state with the line of a table word where `step` fetches its next instruction (log entries 3 and 10). -/
def State.withFetchWord (s : State) (nbits w : Nat) : State := s.loadLine (lineOfTableWord nbits w)

end Sys2Proof.Machine
end

