-- ==== Sys2Proof/Safety.lean ====
section
/-! DEFINITION. The terms in which claims are stated: the invariant of a state, final states, safe steps and runs. -/

namespace Sys2Proof.Machine

/-- What holds of every launch state the spec admits and of every state a run reaches from one: well-formed parameters
(00_scope.md section 4), every value and key in the range of `W` (R123, R126), memory in canonical form, and the pc at
a line or one past the last (R122, R131, R132). -/
structure State.Inv (s : State) : Prop where
  parameters    : parametersWellFormed s.width s.immWidth s.nregs = true
  regs_in_range : ∀ v ∈ s.regs, s.width.inRange v = true
  base_in_range : ∀ k, s.width.inRange (s.unlisted k) = true
  mem_canonical : Memory.wf s.unlisted s.mem = true
  mem_in_range  : ∀ c ∈ s.mem, s.width.inRange c.1 = true ∧ s.width.inRange c.2 = true
  pc_in_program : s.pc ≤ s.prog.length

/-- A state is final exactly when `pc = len(prog)` (R132). -/
def State.isFinal (s : State) : Prop := s.pc = s.prog.length

/-- A step is safe: it goes on, or the run has ended (R132, R133). -/
def safeStep (s : State) : Prop := s.isFinal ∨ ∃ t, step s = .next t

/-- `t` is reached from `s` in some number of steps. -/
inductive Reaches : State → State → Prop where
  | refl (s : State) : Reaches s s
  | tail {s t u : State} : Reaches s t → step t = .next u → Reaches s u

/-- A run from `s` is safe: every state it reaches has a safe step. -/
def safeRun (s : State) : Prop := ∀ t, Reaches s t → safeStep t

end Sys2Proof.Machine
end

