-- ==== Sys2Proof/Certificates/Slice0/Obligations.lean ====
section
/-! DEFINITION. The statements for the provers: each formalises what numbered rules of spec/ say the block or the
reference caller does. -/

open Sys2Proof Sys2Proof.Machine

/-! ## The text front end -/

/-- The lines the source gives as examples, and one line of each of the other three opcodes, parse as
95_test_vectors.md section 1 and 30_encoding.md section 9 say. -/
def Obligations.ParseGivesTheSpecExamples : Prop :=
  parse "add $3, $1, $2".toList = .ok ⟨.add, [1, 2, 3], 0⟩ ∧
  parse "sub $4, $3, $1".toList = .ok ⟨.sub, [3, 1, 4], 0⟩ ∧
  parse "lw $2, 4($3)".toList = .ok ⟨.lw, [3, 2], 4⟩ ∧
  parse "sw $2, -8($3)".toList = .ok ⟨.sw, [3, 2], -8⟩ ∧
  parse "beq $1, $2, 16".toList = .ok ⟨.beq, [1, 2], 16⟩ ∧
  parse "and $5, $3, $4".toList = .ok ⟨.and, [3, 4, 5], 0⟩ ∧
  parse "or $6, $3, $4".toList = .ok ⟨.or, [3, 4, 6], 0⟩ ∧
  parse "xor $1, $2, $3".toList = .error .unknownOpcode ∧
  parse "add $3, $1".toList = .error .malformedInstruction

/-- R41, R42, R43: which opcodes have which format, what each format extracts from its three operand tokens, and the
worked examples of the three rules. -/
def Obligations.OperandExtractionFollowsFormat : Prop :=
  (∀ op : Opcode, (op.format = .m ↔ op = .lw ∨ op = .sw) ∧ (op.format = .b ↔ op = .beq) ∧
    (op.format = .r ↔ op = .add ∨ op = .sub ∨ op = .and ∨ op = .or)) ∧
  (∀ (line : Line) (op : Opcode) (t1 t2 t3 : Line), tokenize line = [op.name, t1, t2, t3] →
    (op.format = .m → ∀ rt imm rs, regToken t1 = .ok rt → immToken t2 = .ok imm → regToken t3 = .ok rs →
      parse line = .ok ⟨op, [rs, rt], imm⟩) ∧
    (op.format = .r → ∀ rd rs rt, regToken t1 = .ok rd → regToken t2 = .ok rs → regToken t3 = .ok rt →
      parse line = .ok ⟨op, [rs, rt, rd], 0⟩) ∧
    (op.format = .b → ∀ rs rt imm, regToken t1 = .ok rs → regToken t2 = .ok rt → immToken t3 = .ok imm →
      parse line = .ok ⟨op, [rs, rt], imm⟩)) ∧
  parse "lw $2, 4($3)".toList = .ok ⟨.lw, [3, 2], 4⟩ ∧ parse "sw $2, -8($3)".toList = .ok ⟨.sw, [3, 2], -8⟩ ∧
  parse "add $3, $1, $2".toList = .ok ⟨.add, [1, 2, 3], 0⟩ ∧ parse "beq $1, $2, 16".toList = .ok ⟨.beq, [1, 2], 16⟩

/-- R44, R45: punctuation counts as one space; the separators are the six white-space characters and the three
punctuation characters; tokens are the maximal runs of other characters, in text order, and none is empty. The last three
equations determine the token list of every line. -/
def Obligations.TokensAreMaximalRuns : Prop :=
  (∀ c : Char, isWhitespace c = true ↔ c.toNat ∈ [0x20, 0x09, 0x0A, 0x0B, 0x0C, 0x0D]) ∧
  (∀ c : Char, isPunctuation c = true ↔ c ∈ [',', '(', ')']) ∧
  (∀ line : Line, tokenize line = tokenize (line.map fun c => if c ∈ [',', '(', ')'] then ' ' else c)) ∧
  tokenize [] = [] ∧
  (∀ run : Line, run ≠ [] → (∀ c ∈ run, isWhitespace c = false ∧ isPunctuation c = false) → tokenize run = [run]) ∧
  (∀ (before after : Line) (c : Char), isWhitespace c = true ∨ isPunctuation c = true →
    tokenize (before ++ c :: after) = tokenize before ++ tokenize after)

/-- R54: where and which punctuation stands makes no difference. One separator may stand for another, may be doubled,
and may stand at either end of the line, and the result of `Parse` is the same; the rule's four lines agree. -/
def Obligations.ParseIgnoresPunctuation : Prop :=
  (∀ (before after : Line) (c d : Char), isWhitespace c = true ∨ isPunctuation c = true →
    isWhitespace d = true ∨ isPunctuation d = true →
    parse (before ++ c :: after) = parse (before ++ d :: after) ∧
    parse (before ++ c :: d :: after) = parse (before ++ c :: after) ∧
    parse (c :: after) = parse after ∧ parse (before ++ [c]) = parse before) ∧
  (∀ l ∈ ["lw $2 4 $3", "lw $2, 4 ($3)", "lw $2,4($3)", "lw ($2) 4, $3"],
    tokenize l.toList = ["lw".toList, "$2".toList, "4".toList, "$3".toList] ∧
    parse l.toList = .ok ⟨.lw, [3, 2], 4⟩)

/-- R46: a register token is the sigil and one or more ASCII digits, read in base ten, without a bound; anything else is
`MalformedInstruction`. -/
def Obligations.RegisterTokenGrammar : Prop :=
  (∀ (tok : Line) (n : Nat), regToken tok = .ok n ↔
    ∃ ds : Line, tok = '$' :: ds ∧ ds ≠ [] ∧ (∀ c ∈ ds, '0'.toNat ≤ c.toNat ∧ c.toNat ≤ '9'.toNat) ∧
      n = Nat.ofDigits 10 (ds.reverse.map fun c => c.toNat - '0'.toNat)) ∧
  (∀ (tok : Line) (e : BlockError), regToken tok = .error e → e = .malformedInstruction) ∧
  regToken "$007".toList = .ok 7 ∧ regToken "$4294967296".toList = .ok 4294967296 ∧
  (∀ t ∈ ["$", "$-1", "$+1", "$1a", "$ 1", "r1", "1", "#1"], regToken t.toList = .error .malformedInstruction)

/-- R47: an immediate token is an optional sign and one or more ASCII digits, read in base ten, without a bound; anything
else is `MalformedInstruction`. -/
def Obligations.ImmediateTokenGrammar : Prop :=
  (∀ (tok : Line) (n : Int), immToken tok = .ok n ↔
    ∃ ds : Line, ds ≠ [] ∧ (∀ c ∈ ds, '0'.toNat ≤ c.toNat ∧ c.toNat ≤ '9'.toNat) ∧
      ((tok = '-' :: ds ∧ n = -((Nat.ofDigits 10 (ds.reverse.map fun c => c.toNat - '0'.toNat) : Nat) : Int)) ∨
       ((tok = ds ∨ tok = '+' :: ds) ∧ n = ((Nat.ofDigits 10 (ds.reverse.map fun c => c.toNat - '0'.toNat) : Nat) : Int)))) ∧
  (∀ (tok : Line) (e : BlockError), immToken tok = .error e → e = .malformedInstruction) ∧
  immToken "-0".toList = .ok 0 ∧ immToken "+0".toList = .ok 0 ∧ immToken "-8".toList = .ok (-8) ∧
  immToken "0016".toList = .ok 16 ∧
  (∀ t ∈ ["0x10", "1_000", "4.0", "--4", "$4", "abc"], immToken t.toList = .error .malformedInstruction) ∧
  parse "lw $2, - 4($3)".toList = .error .malformedInstruction

/-- R55, R56, R146: which error a line reports, in the order of the checks of R50, and the consequences R146 lists. -/
def Obligations.ParseReportsTheFirstDefect : Prop :=
  (∀ line : Line, tokenize line = [] → parse line = .error .malformedInstruction) ∧
  (∀ (line t0 : Line) (rest : List Line), tokenize line = t0 :: rest → (∀ op : Opcode, op.name ≠ t0) →
    parse line = .error .unknownOpcode) ∧
  (∀ (line : Line) (op : Opcode) (rest : List Line), tokenize line = op.name :: rest → rest.length ≠ 3 →
    parse line = .error .malformedInstruction) ∧
  (∀ (line : Line) (op : Opcode) (rest : List Line) (e : BlockError), tokenize line = op.name :: rest →
    parse line = .error e → e = .malformedInstruction) ∧
  (∀ l ∈ ["xor", "xor $1", "xor 1, 2, 3, 4, 5"], parse l.toList = .error .unknownOpcode) ∧
  parse "add".toList = .error .malformedInstruction

/-- R18: the Decoded Instruction has three operands for add, sub, and, or and two for lw, sw, beq; the immediate of an
instruction whose format has none is 0 (R17). -/
def Obligations.ParsedOperandCounts : Prop :=
  ∀ (line : Line) (d : DecodedInstruction), parse line = .ok d →
    (d.op = .add ∨ d.op = .sub ∨ d.op = .and ∨ d.op = .or → d.ops.length = 3 ∧ d.imm = 0) ∧
    (d.op = .lw ∨ d.op = .sw ∨ d.op = .beq → d.ops.length = 2)

/-- R3: `Parse`, `Ctl` and `Alu` are in lock-step over the seven opcodes: `Parse` accepts a line of each and refuses every
other first token as unknown, and the two units are defined on exactly the codes of the seven. -/
def Obligations.ThreeComponentsInLockStep : Prop :=
  (∀ op : Opcode, ∃ (line : Line) (d : DecodedInstruction), parse line = .ok d ∧ d.op = op) ∧
  (∀ (line t0 : Line) (rest : List Line), tokenize line = t0 :: rest →
    ((∃ op : Opcode, op.name = t0) ↔ parse line ≠ .error .unknownOpcode)) ∧
  (∀ code : BitVec 3, (∃ v, ctlPort code = .ok v) ↔ ∃ op : Opcode, op.opsel = code) ∧
  (∀ (w : Width) (code : BitVec 3) (a b : Val), (∃ r, aluPort w code a b = .ok r) ↔ ∃ op : Opcode, op.opsel = code)

/-- The optional sub-reason (R140) is there exactly where `Parse` reports `MalformedInstruction`, and it is `tokenCount`
exactly on a line without tokens or with a known opcode and not three operand tokens. The diagnosis is the model's
addition that R140 allows (log entry 13). -/
def Obligations.DiagnosisAgreesWithParse : Prop :=
  ∀ line : Line,
    ((malformedReason line).isSome = true ↔ parse line = .error .malformedInstruction) ∧
    (malformedReason line = some .tokenCount ↔
      tokenize line = [] ∨ ∃ (op : Opcode) (rest : List Line), tokenize line = op.name :: rest ∧ rest.length ≠ 3)

/-- Encoding and decoding agree, for every instruction with every register index and every immediate. The encoder is the
model's own (log entry 11): the spec has no way from a Decoded Instruction to text (R65). -/
def Obligations.DecodeOfEncodeIsTheInstruction : Prop :=
  ∀ i : Instr, decode (encode i) = .ok i

/-! ## The opcode select code, the control lookup and its circuits -/

/-- R60, R62 (port part): the seven codes and the unassigned one. -/
def Obligations.OpcodeSelectCodes : Prop :=
  Opcode.add.opsel = 0#3 ∧ Opcode.sub.opsel = 1#3 ∧ Opcode.lw.opsel = 2#3 ∧ Opcode.sw.opsel = 3#3 ∧
  Opcode.beq.opsel = 4#3 ∧ Opcode.and.opsel = 5#3 ∧ Opcode.or.opsel = 6#3 ∧
  (∀ op : Opcode, opcodeOfSelect op.opsel = .ok op) ∧ opcodeOfSelect 7#3 = .error .unknownOpcode

/-- R80 to R86 and R88: the seven rows, and no vector on code `111`. -/
def Obligations.ControlTableRows : Prop :=
  ctlPort 0#3 = .ok ⟨.one, .zero, .zero, .zero, .zero, .one, .zero⟩ ∧
  ctlPort 1#3 = .ok ⟨.one, .zero, .zero, .zero, .zero, .one, .zero⟩ ∧
  ctlPort 2#3 = .ok ⟨.zero, .one, .zero, .one, .zero, .one, .one⟩ ∧
  ctlPort 3#3 = .ok ⟨.dontCare, .one, .zero, .zero, .one, .zero, .dontCare⟩ ∧
  ctlPort 4#3 = .ok ⟨.dontCare, .zero, .one, .zero, .zero, .zero, .dontCare⟩ ∧
  ctlPort 5#3 = .ok ⟨.one, .zero, .zero, .zero, .zero, .one, .zero⟩ ∧
  ctlPort 6#3 = .ok ⟨.one, .zero, .zero, .zero, .zero, .one, .zero⟩ ∧
  ctlPort 7#3 = .error .unknownOpcode

/-- R87, R91: the source's two invariants on the table and the properties that follow from its rows. -/
def Obligations.ControlTableInvariants : Prop :=
  (∀ op : Opcode, ((ctl op).regWrite = .zero → (ctl op).memtoReg = .dontCare)) ∧
  (ctl .sw).regDst = .dontCare ∧ (ctl .beq).regDst = .dontCare ∧
  (Opcode.all.map ctl).dedup.length = 4 ∧
  (∀ op : Opcode,
    ((ctl op).regDst = .dontCare ∨ (ctl op).memtoReg = .dontCare → (ctl op).regWrite = .zero) ∧
    (ctl op).aluSrc ≠ .dontCare ∧ (ctl op).branch ≠ .dontCare ∧ (ctl op).memRead ≠ .dontCare ∧
    (ctl op).memWrite ≠ .dontCare ∧ (ctl op).regWrite ≠ .dontCare ∧
    ¬((ctl op).memRead = .one ∧ (ctl op).memWrite = .one) ∧
    ((ctl op).branch = .one ↔ op = .beq) ∧ ((ctl op).memRead = .one ↔ op = .lw) ∧
    ((ctl op).memWrite = .one ↔ op = .sw) ∧ ((ctl op).memtoReg = .one → (ctl op).memRead = .one) ∧
    ((ctl op).aluSrc = .one ↔ op.format = .m) ∧
    ((ctl op).regWrite = .one ↔ op = .add ∨ op = .sub ∨ op = .lw ∨ op = .and ∨ op = .or) ∧
    ((ctl op).regWrite = .zero ↔ op = .sw ∨ op = .beq))

/-- R89: what refining a row means, field by field, and the circuit of the model implements `Ctl`: on each of the seven
codes its output refines the opcode's row whatever the free wires carry, and every refinement of the row is the output
for some levels of the free wires. On code `111` all seven wires are free and `unknown` is 1. -/
def Obligations.CircuitOutputsAreTheRefinements : Prop :=
  (∀ (v : Levels) (r : ControlVector), refines v r = true ↔
    ((r.regDst = .zero → v.regDst = false) ∧ (r.regDst = .one → v.regDst = true)) ∧
    ((r.aluSrc = .zero → v.aluSrc = false) ∧ (r.aluSrc = .one → v.aluSrc = true)) ∧
    ((r.branch = .zero → v.branch = false) ∧ (r.branch = .one → v.branch = true)) ∧
    ((r.memRead = .zero → v.memRead = false) ∧ (r.memRead = .one → v.memRead = true)) ∧
    ((r.memWrite = .zero → v.memWrite = false) ∧ (r.memWrite = .one → v.memWrite = true)) ∧
    ((r.regWrite = .zero → v.regWrite = false) ∧ (r.regWrite = .one → v.regWrite = true)) ∧
    ((r.memtoReg = .zero → v.memtoReg = false) ∧ (r.memtoReg = .one → v.memtoReg = true))) ∧
  (∀ (free : Levels) (op : Opcode),
    refines (ctlCircuit free op.opsel).signals (ctl op) = true ∧ (ctlCircuit free op.opsel).unknown = false) ∧
  (∀ (op : Opcode) (v : Levels), refines v (ctl op) = true → ∃ free, (ctlCircuit free op.opsel).signals = v) ∧
  (∀ free : Levels, ctlCircuit free 7#3 = ⟨free, true⟩)

/-- R130: the signals a step reads are concrete where it reads them, so the step after `Parse` is the same for every
two-level refinement of the vector. -/
def Obligations.DontCareIsNeverConsulted : Prop :=
  (∀ op : Opcode, (ctl op).aluSrc ≠ .dontCare ∧ (ctl op).branch ≠ .dontCare ∧ (ctl op).memRead ≠ .dontCare ∧
    (ctl op).memWrite ≠ .dontCare ∧ (ctl op).regWrite ≠ .dontCare ∧
    ((ctl op).regWrite = .one → (ctl op).regDst ≠ .dontCare ∧ (ctl op).memtoReg ≠ .dontCare)) ∧
  (∀ (v : Levels) (i : Instr) (s : State), refines v (ctl i.opcode) = true →
    datapath (vectorOfLevels v) i s = exec i s)

/-- R66: a parsed line always drives an assigned code on the `op` port, on which `Ctl` gives the opcode's row, `Alu` the
opcode's evaluator, and `unknown` is 0; `unknown` is 1 on code `111` and on no other. -/
def Obligations.ParsedTextDrivesAssignedCodes : Prop :=
  (∀ (line : Line) (d : DecodedInstruction), parse line = .ok d →
    ctlPort d.op.opsel = .ok (ctl d.op) ∧
    (∀ (w : Width) (a b : Val), aluPort w d.op.opsel a b = .ok (alu w d.op a b)) ∧
    (∀ free : Levels, (ctlCircuit free d.op.opsel).unknown = false) ∧
    (∀ (free : AluPorts) (w : Width) (a b : Val), (aluCircuit free w d.op.opsel a b).unknown = false)) ∧
  (∀ (free : Levels) (code : BitVec 3), (ctlCircuit free code).unknown = true ↔ code = 7#3) ∧
  (∀ (free : AluPorts) (w : Width) (code : BitVec 3) (a b : Val),
    (aluCircuit free w code a b).unknown = true ↔ code = 7#3)

/-! ## The evaluators -/

/-- R100: the seven functions of `Alu`, its error on any other code, and that exactly five distinct functions occur. -/
def Obligations.AluAppliesTheEvaluator : Prop :=
  (∀ (w : Width) (a b : Val),
    aluPort w 0#3 a b = .ok (.num (w.wrap (a + b))) ∧ aluPort w 1#3 a b = .ok (.num (w.wrap (a - b))) ∧
    aluPort w 2#3 a b = .ok (.num (w.wrap (a + b))) ∧ aluPort w 3#3 a b = .ok (.num (w.wrap (a + b))) ∧
    aluPort w 4#3 a b = .ok (.bool (decide (a = b))) ∧ aluPort w 5#3 a b = .ok (.num (bitAnd a b)) ∧
    aluPort w 6#3 a b = .ok (.num (bitOr a b)) ∧ aluPort w 7#3 a b = .error .unknownOpcode ∧
    alu w .lw a b = alu w .add a b ∧ alu w .sw a b = alu w .add a b) ∧
  (∀ op op' : Opcode, op ∈ [.add, .sub, .beq, .and, .or] → op' ∈ [.add, .sub, .beq, .and, .or] →
    op ≠ op' → alu (.bits 32) op ≠ alu (.bits 32) op')

/-- R21: the ports of `Alu`. `result` carries the value of a numeric opcode and `eq` the boolean of `beq`, whatever the
wires without meaning carry; on code `111` `unknown` is 1. -/
def Obligations.AluPortsCarryTheResult : Prop :=
  ∀ (free : AluPorts) (w : Width) (a b : Val),
    (∀ op : Opcode, op ≠ .beq → ∃ v, alu w op a b = .num v ∧
      (aluCircuit free w op.opsel a b).result = v ∧ (aluCircuit free w op.opsel a b).unknown = false) ∧
    (∃ t, alu w .beq a b = .bool t ∧
      (aluCircuit free w Opcode.beq.opsel a b).eq = t ∧ (aluCircuit free w Opcode.beq.opsel a b).unknown = false) ∧
    (aluCircuit free w 7#3 a b).unknown = true

/-- R106: wrapping commutes with the four operations, AND and OR of in-range values stay in range, a fixed width and `∞`
give the same number whenever the exact result is in range, the source's examples hold from 5 bits on, and `beq` agrees
on in-range values. -/
def Obligations.FixedWidthAgreesWithUnbounded : Prop :=
  (∀ (w : Width) (a b : Int), w.wellFormed = true →
    w.wrap (a + b) = w.wrap (w.wrap a + w.wrap b) ∧ w.wrap (a - b) = w.wrap (w.wrap a - w.wrap b) ∧
    w.wrap (bitAnd a b) = bitAnd (w.wrap a) (w.wrap b) ∧ w.wrap (bitOr a b) = bitOr (w.wrap a) (w.wrap b)) ∧
  (∀ (w : Width) (a b : Int), w.wellFormed = true → w.inRange a = true → w.inRange b = true →
    w.inRange (bitAnd a b) = true ∧ w.inRange (bitOr a b) = true ∧
    alu w .beq (w.wrap a) (w.wrap b) = alu .unbounded .beq a b) ∧
  (∀ (w : Width) (op : Opcode) (a b v : Int), w.wellFormed = true → w.inRange v = true →
    alu .unbounded op a b = .num v → alu w op a b = .num v) ∧
  (∀ k : Nat, 5 ≤ k → alu (.bits k) .add 5 (-3) = .num 2 ∧ alu (.bits k) .sub 5 3 = .num 2 ∧
    alu (.bits k) .and 12 10 = .num 8 ∧ alu (.bits k) .or 12 10 = .num 14)

/-- For a finite width the numeric evaluators are the bit-vector operations on the `W`-bit patterns: the integer results
the model keeps are the signed readings of what a circuit of `W` wires computes (R103; DESIGN CHOICE log entry 9 is why
the model keeps integers). -/
def Obligations.FiniteWidthResultsAreBitVectors : Prop :=
  ∀ (k : Nat) (x y : BitVec k), 1 ≤ k →
    alu (.bits k) .add x.toInt y.toInt = .num (x + y).toInt ∧
    alu (.bits k) .sub x.toInt y.toInt = .num (x - y).toInt ∧
    alu (.bits k) .lw x.toInt y.toInt = .num (x + y).toInt ∧
    alu (.bits k) .sw x.toInt y.toInt = .num (x + y).toInt ∧
    alu (.bits k) .and x.toInt y.toInt = .num (x &&& y).toInt ∧
    alu (.bits k) .or x.toInt y.toInt = .num (x ||| y).toInt ∧
    alu (.bits k) .beq x.toInt y.toInt = .bool (decide (x = y))

/-- The algebraic properties of wrapping, AND, OR and `beq` that 95_test_vectors.md section 2.3 says hold for every `W`,
and that AND and OR are commutative (R104, R105). -/
def Obligations.EvaluatorAlgebra : Prop :=
  ∀ (w : Width) (a b : Val), w.wellFormed = true → w.inRange a = true → w.inRange b = true →
    w.wrap (w.wrap (a + b) - b) = a ∧ bitAnd a (bitOr a b) = a ∧
    w.wrap (bitAnd a b + bitOr a b) = w.wrap (a + b) ∧
    bitAnd a b = bitAnd b a ∧ bitOr a b = bitOr b a ∧ alu w .beq a b = alu w .beq b a

/-! ## The seven instructions

Each statement has the evaluator of its rule, the rule's corner cases, and the whole next state of the instruction
(R134): a state with every field not named as it was. Register operands may coincide (R128). -/

/-- R101: `add`. -/
def Obligations.AddInstruction : Prop :=
  Opcode.add.opsel = 0b000#3 ∧ Opcode.add.format = .r ∧
  (∀ (w : Width) (a b : Val), alu w .add a b = .num (w.wrap (a + b)) ∧ alu w .add a b = alu w .add b a ∧
    (w.wellFormed = true → w.inRange a = true → alu w .add a 0 = .num a)) ∧
  alu (.bits 32) .add 2147483647 1 = .num (-2147483648) ∧ alu (.bits 32) .add (-2147483648) (-1) = .num 2147483647 ∧
  alu .unbounded .add 2147483647 1 = .num 2147483648 ∧ alu .unbounded .add (-2147483648) (-1) = .num (-2147483649) ∧
  alu (.bits 32) .add 5 (-3) = .num 2 ∧
  (∀ (rd rs rt : Nat) (s : State), rd < s.nregs → rs < s.nregs → rt < s.nregs →
    exec (.add rd rs rt) s =
      .next { s with regs := s.regs.set rd (s.width.wrap (s.readReg rs + s.readReg rt)), pc := s.pc + 1 })

/-- R102: `sub`, the first operand the minuend. -/
def Obligations.SubInstruction : Prop :=
  Opcode.sub.opsel = 0b001#3 ∧ Opcode.sub.format = .r ∧
  (∀ (w : Width) (a b : Val), alu w .sub a b = .num (w.wrap (a - b)) ∧ alu w .sub a a = .num 0 ∧
    alu w .sub 0 b = .num (w.wrap (-b)) ∧
    (w.wellFormed = true → w.inRange a = true → alu w .sub a 0 = .num a)) ∧
  alu (.bits 32) .sub 0 (-2147483648) = .num (-2147483648) ∧ alu (.bits 32) .sub (-2147483648) 1 = .num 2147483647 ∧
  alu .unbounded .sub 0 (-2147483648) = .num 2147483648 ∧ alu .unbounded .sub (-2147483648) 1 = .num (-2147483649) ∧
  alu (.bits 32) .sub 5 3 = .num 2 ∧
  (∀ (rd rs rt : Nat) (s : State), rd < s.nregs → rs < s.nregs → rt < s.nregs →
    exec (.sub rd rs rt) s =
      .next { s with regs := s.regs.set rd (s.width.wrap (s.readReg rs - s.readReg rt)), pc := s.pc + 1 })

/-- R104: `and`, bit by bit on the infinite expansions; for a finite width the AND of the `W`-bit patterns. -/
def Obligations.AndInstruction : Prop :=
  Opcode.and.opsel = 0b101#3 ∧ Opcode.and.format = .r ∧
  (∀ (w : Width) (a b : Int), ∃ r : Int, alu w .and a b = .num r ∧
    (∀ i : Nat, bitOf i r = 1 ↔ bitOf i a = 1 ∧ bitOf i b = 1) ∧ (r < 0 ↔ a < 0 ∧ b < 0)) ∧
  (∀ (k : Nat) (x y : BitVec k), 1 ≤ k → alu (.bits k) .and x.toInt y.toInt = .num (x &&& y).toInt) ∧
  (∀ (w : Width) (a : Val), alu w .and a 0 = .num 0 ∧ alu w .and a (-1) = .num a ∧ alu w .and a a = .num a) ∧
  alu (.bits 32) .and (-1) 5 = .num 5 ∧ alu (.bits 32) .and (-4) (-6) = .num (-8) ∧
  alu (.bits 32) .and (-4) 3 = .num 0 ∧ alu (.bits 32) .and 12 10 = .num 8 ∧
  (∀ (rd rs rt : Nat) (s : State), rd < s.nregs → rs < s.nregs → rt < s.nregs →
    exec (.and rd rs rt) s =
      .next { s with regs := s.regs.set rd (bitAnd (s.readReg rs) (s.readReg rt)), pc := s.pc + 1 })

/-- R105: `or`, bit by bit on the infinite expansions; for a finite width the OR of the `W`-bit patterns. -/
def Obligations.OrInstruction : Prop :=
  Opcode.or.opsel = 0b110#3 ∧ Opcode.or.format = .r ∧
  (∀ (w : Width) (a b : Int), ∃ r : Int, alu w .or a b = .num r ∧
    (∀ i : Nat, bitOf i r = 1 ↔ bitOf i a = 1 ∨ bitOf i b = 1) ∧ (r < 0 ↔ a < 0 ∨ b < 0)) ∧
  (∀ (k : Nat) (x y : BitVec k), 1 ≤ k → alu (.bits k) .or x.toInt y.toInt = .num (x ||| y).toInt) ∧
  (∀ (w : Width) (a : Val), alu w .or a 0 = .num a ∧ alu w .or a (-1) = .num (-1) ∧ alu w .or a a = .num a) ∧
  alu (.bits 32) .or (-4) 1 = .num (-3) ∧ alu (.bits 32) .or (-4) (-6) = .num (-2) ∧
  alu (.bits 32) .or (-8) 7 = .num (-1) ∧ alu (.bits 32) .or 12 10 = .num 14 ∧
  (∀ (rd rs rt : Nat) (s : State), rd < s.nregs → rs < s.nregs → rt < s.nregs →
    exec (.or rd rs rt) s =
      .next { s with regs := s.regs.set rd (bitOr (s.readReg rs) (s.readReg rt)), pc := s.pc + 1 })

/-- R110: `lw`. The whole value at the effective address goes to `rt`; `rt = rs` is allowed. -/
def Obligations.LoadInstruction : Prop :=
  Opcode.lw.opsel = 0b010#3 ∧ Opcode.lw.format = .m ∧ ctl .lw = ⟨.zero, .one, .zero, .one, .zero, .one, .one⟩ ∧
  (∀ (w : Width) (base offset : Val), alu w .lw base offset = .num (w.wrap (base + offset)) ∧
    (w.wellFormed = true → w.inRange base = true → alu w .lw base 0 = .num base)) ∧
  alu (.bits 32) .lw 2147483647 1 = .num (-2147483648) ∧ alu (.bits 32) .lw 100 4 = .num 104 ∧
  (∀ (rt rs : Nat) (imm : Int) (s : State), rt < s.nregs → rs < s.nregs → s.immWidth.inRange imm = true →
    exec (.lw rt imm rs) s =
      .next { s with regs := s.regs.set rt (s.memRead (s.width.wrap (s.readReg rs + imm))), pc := s.pc + 1 })

/-- R111: `sw`. The value of `rt` is written at the effective address and no register is written; `rt = rs` is allowed. -/
def Obligations.StoreInstruction : Prop :=
  Opcode.sw.opsel = 0b011#3 ∧ Opcode.sw.format = .m ∧
  ctl .sw = ⟨.dontCare, .one, .zero, .zero, .one, .zero, .dontCare⟩ ∧
  (∀ (w : Width) (base offset : Val), alu w .sw base offset = .num (w.wrap (base + offset)) ∧
    alu w .sw base offset = alu w .lw base offset ∧
    (w.wellFormed = true → w.inRange base = true → alu w .sw base 0 = .num base)) ∧
  alu (.bits 32) .sw 100 (-8) = .num 92 ∧ alu (.bits 32) .sw 2147483647 1 = .num (-2147483648) ∧
  (∀ (rt rs : Nat) (imm : Int) (s : State), rt < s.nregs → rs < s.nregs → s.immWidth.inRange imm = true →
    exec (.sw rt imm rs) s =
      .next { s with mem := Memory.write s.unlisted s.mem (s.width.wrap (s.readReg rs + imm)) (s.readReg rt), pc := s.pc + 1 })

/-- R116: `beq`. The comparison, its port, and the instruction's effect: only the pc changes, to `pc + 1` when the values
differ and to `BranchTarget(pc, imm)` when they are equal and the target is an index of the program or one past it. -/
def Obligations.BranchInstruction : Prop :=
  Opcode.beq.opsel = 0b100#3 ∧ Opcode.beq.format = .b ∧
  ctl .beq = ⟨.dontCare, .zero, .one, .zero, .zero, .zero, .dontCare⟩ ∧
  (∀ (w : Width) (a b : Val), alu w .beq a b = .bool (decide (a = b)) ∧ alu w .beq a a = .bool true) ∧
  (∀ (free : AluPorts) (w : Width) (a b : Val), (aluCircuit free w 0b100#3 a b).eq = decide (a = b)) ∧
  (∀ (k : Nat) (a b : Val), 1 ≤ k → (Width.bits k).inRange a = true → (Width.bits k).inRange b = true →
    (alu (.bits k) .beq a b = .bool true ↔ (Width.bits k).wrap (a - b) = 0)) ∧
  alu (.bits 32) .beq 7 7 = .bool true ∧ alu (.bits 32) .beq 7 8 = .bool false ∧
  alu (.bits 32) .beq 0 (-0) = .bool true ∧
  (∀ (rs rt : Nat) (imm : Int) (s : State), rs < s.nregs → rt < s.nregs → s.immWidth.inRange imm = true →
    s.readReg rs ≠ s.readReg rt → exec (.beq rs rt imm) s = .next { s with pc := s.pc + 1 }) ∧
  (∀ (rs rt : Nat) (imm : Int) (s : State), rs < s.nregs → rt < s.nregs → s.immWidth.inRange imm = true →
    s.readReg rs = s.readReg rt → 0 ≤ s.branchTarget s.pc imm → s.branchTarget s.pc imm ≤ s.prog.length →
    exec (.beq rs rt imm) s = .next { s with pc := (s.branchTarget s.pc imm).toNat })

/-! ## Frames -/

/-- The frame of the register-only instructions add, sub, and, or: every register but `rd`, every memory key, the program
and the parameters are as before. -/
def Obligations.RegisterInstructionsFrame : Prop :=
  ∀ (rd rs rt : Nat) (i : Instr) (s t : State),
    i = .add rd rs rt ∨ i = .sub rd rs rt ∨ i = .and rd rs rt ∨ i = .or rd rs rt → exec i s = .next t →
    (∀ r, r ≠ rd → t.readReg r = s.readReg r) ∧ (∀ k, t.memRead k = s.memRead k) ∧
    t.prog = s.prog ∧ t.width = s.width ∧ t.immWidth = s.immWidth ∧ t.targets = s.targets ∧
    t.nregs = s.nregs ∧ t.memBase = s.memBase

/-- The frame of `lw`: every register but `rt` and every memory key are as before. -/
def Obligations.LoadFrame : Prop :=
  ∀ (rt rs : Nat) (imm : Int) (s t : State), exec (.lw rt imm rs) s = .next t →
    (∀ r, r ≠ rt → t.readReg r = s.readReg r) ∧ (∀ k, t.memRead k = s.memRead k) ∧
    t.prog = s.prog ∧ t.width = s.width ∧ t.immWidth = s.immWidth ∧ t.targets = s.targets ∧
    t.nregs = s.nregs ∧ t.memBase = s.memBase

/-- The frame of `sw`: every register is as before, and every memory key but the one at `accessKey s imm rs`, the
effective address the meaning computes. -/
def Obligations.StoreFrame : Prop :=
  ∀ (rt rs : Nat) (imm : Int) (s t : State), exec (.sw rt imm rs) s = .next t →
    (∀ r, t.readReg r = s.readReg r) ∧ (∀ k, k ≠ accessKey s imm rs → t.memRead k = s.memRead k) ∧
    t.prog = s.prog ∧ t.width = s.width ∧ t.immWidth = s.immWidth ∧ t.targets = s.targets ∧
    t.nregs = s.nregs ∧ t.memBase = s.memBase

/-- The frame of `beq`: every register and every memory key are as before. -/
def Obligations.BranchFrame : Prop :=
  ∀ (rs rt : Nat) (imm : Int) (s t : State), exec (.beq rs rt imm) s = .next t →
    (∀ r, t.readReg r = s.readReg r) ∧ (∀ k, t.memRead k = s.memRead k) ∧
    t.prog = s.prog ∧ t.width = s.width ∧ t.immWidth = s.immWidth ∧ t.targets = s.targets ∧
    t.nregs = s.nregs ∧ t.memBase = s.memBase

/-! ## The caller's checks and the pc -/

/-- R127: an instruction one of whose operand indices is not below `NREGS` stops, whatever else is wrong with it. -/
def Obligations.RegisterIndexIsChecked : Prop :=
  ∀ (i : Instr) (s : State) (r : Nat), r ∈ i.ops → s.nregs ≤ r → exec i s = .fault .registerIndexOutOfRange

/-- R125: the immediate's own value inside the range of `IMM_W`, the fault outside it; the check is made for every lw, sw
and beq whether or not the branch is taken, and never for format R; the default range. -/
def Obligations.ImmediateIsConvertedOrRefused : Prop :=
  (∀ imm : Int, immVal .unbounded imm = .ok imm) ∧
  (∀ (k : Nat) (imm : Int),
    (-(2 ^ (k - 1) : Int) ≤ imm ∧ imm ≤ 2 ^ (k - 1) - 1 → immVal (.bits k) imm = .ok imm) ∧
    (¬(-(2 ^ (k - 1) : Int) ≤ imm ∧ imm ≤ 2 ^ (k - 1) - 1) → immVal (.bits k) imm = .error .immediateOutOfRange)) ∧
  (∀ (i : Instr) (s : State), i.opcode = .lw ∨ i.opcode = .sw ∨ i.opcode = .beq → (∀ r ∈ i.ops, r < s.nregs) →
    immVal s.immWidth i.imm = .error .immediateOutOfRange → exec i s = .fault .immediateOutOfRange) ∧
  (∀ (i : Instr) (s : State), i.opcode.format = .r → exec i s ≠ .fault .immediateOutOfRange) ∧
  (∀ imm : Int, immVal Config.defaultImmWidth imm = .ok imm ↔ -32768 ≤ imm ∧ imm ≤ 32767)

/-- R131: after an instruction that is not a taken branch the pc is one more; after a taken branch it is the target; a
target that is negative or greater than `len(prog)` stops the caller, and `len(prog)` itself does not. -/
def Obligations.PcAdvances : Prop :=
  (∀ (i : Instr) (s t : State), exec i s = .next t →
    (i.opcode ≠ .beq ∨ s.readReg i.rs ≠ s.readReg i.rt → t.pc = s.pc + 1) ∧
    (i.opcode = .beq → s.readReg i.rs = s.readReg i.rt → (t.pc : Int) = s.branchTarget s.pc i.imm)) ∧
  (∀ (rs rt : Nat) (imm : Int) (s : State), rs < s.nregs → rt < s.nregs → s.immWidth.inRange imm = true →
    s.readReg rs = s.readReg rt →
    (s.branchTarget s.pc imm < 0 ∨ (s.prog.length : Int) < s.branchTarget s.pc imm →
      exec (.beq rs rt imm) s = .fault .pcOutOfRange) ∧
    (s.branchTarget s.pc imm = s.prog.length →
      exec (.beq rs rt imm) s = .next { s with pc := s.prog.length }))

/-- R117: a step that does not go on to the next instruction is a `beq` whose registers hold the same value: control is
redirected only where `Branch = 1` and the evaluator answers true. -/
def Obligations.OnlyBeqRedirectsControl : Prop :=
  ∀ (i : Instr) (s t : State), exec i s = .next t → t.pc ≠ s.pc + 1 →
    (∃ rs rt imm, i = .beq rs rt imm) ∧ (ctl i.opcode).branch = .one ∧
    alu s.width i.opcode (s.readReg i.rs) (s.readReg i.rt) = .bool true

/-- Every instruction the caller accepts completes: for each of the seven, in every state that has its registers and
accepts its immediate, `exec` answers a next state, a taken `beq` under the further premise that its target is an index
of the program or one past it (R129, R131). -/
def Obligations.AcceptedInstructionsComplete : Prop :=
  ∀ (i : Instr) (s : State), i.wellFormed s.nregs s.immWidth = true →
    (i.opcode = .beq → s.readReg i.rs = s.readReg i.rt →
      0 ≤ s.branchTarget s.pc i.imm ∧ s.branchTarget s.pc i.imm ≤ s.prog.length) →
    ∃ t, exec i s = .next t

/-! ## The step and the whole machine -/

/-- A step runs the instruction that the line at the pc decodes to: nothing is added around `exec` (R129). -/
def Obligations.StepRunsTheDecodedInstruction : Prop :=
  ∀ (s : State) (line : Line) (i : Instr), s.prog[s.pc]? = some line → decode line = .ok i → step s = exec i s

/-- When a step stops and with which name, for every state whose pc is in the program or one past it: `final` exactly at
`pc = len(prog)` (R132; the model's name for it is `endOfRun`, log entry 4), and each of the faults of R133 exactly where
its rule says. No step is refused. -/
def Obligations.StepStopsExactlyWhereTheRulesSay : Prop :=
  ∀ s : State, s.pc ≤ s.prog.length →
    (step s = .fault .endOfRun ↔ s.isFinal) ∧
    (∀ e : BlockError, step s = .fault (.parseError e) ↔ ∃ line, s.prog[s.pc]? = some line ∧ parse line = .error e) ∧
    (step s = .fault .registerIndexOutOfRange ↔
      ∃ line i, s.prog[s.pc]? = some line ∧ decode line = .ok i ∧ ∃ r ∈ i.ops, s.nregs ≤ r) ∧
    (step s = .fault .immediateOutOfRange ↔
      ∃ line i, s.prog[s.pc]? = some line ∧ decode line = .ok i ∧ (∀ r ∈ i.ops, r < s.nregs) ∧
        i.opcode.format ≠ .r ∧ s.immWidth.inRange i.imm = false) ∧
    (step s = .fault .pcOutOfRange ↔
      ∃ line rs rt imm, s.prog[s.pc]? = some line ∧ decode line = .ok (.beq rs rt imm) ∧ rs < s.nregs ∧ rt < s.nregs ∧
        s.immWidth.inRange imm = true ∧ s.readReg rs = s.readReg rt ∧
        (s.branchTarget s.pc imm < 0 ∨ (s.prog.length : Int) < s.branchTarget s.pc imm)) ∧
    (∀ r : Refusal, step s ≠ .refused r)

/-- The program never changes during a run (R121), and neither do the parameters of the run and what the launch states of
branch targets and of unlisted keys (R129 writes none of them). That these are data of State is the model's choice (log
entries 6, 7 and 8). -/
def Obligations.ProgramNeverChanges : Prop :=
  ∀ s t : State, Reaches s t →
    t.prog = s.prog ∧ t.width = s.width ∧ t.immWidth = s.immWidth ∧ t.targets = s.targets ∧
    t.nregs = s.nregs ∧ t.memBase = s.memBase

/-- Every step keeps the invariant, from every state that has it: values in range, memory canonical, the pc in the
program or one past it, the parameters well formed. -/
def Obligations.StepKeepsInvariant : Prop :=
  ∀ s t : State, s.Inv → step s = .next t → t.Inv

/-- The invariant holds of every launch state the spec admits (R123, R161), its memory a base in the range of `W` and
cells in canonical form (log entry 8), and of `State.reset`, which is one (log entry 1). -/
def Obligations.LaunchStatesHaveTheInvariant : Prop :=
  (∀ (width immWidth : Width) (prog : List Line) (targets : List BranchPoint) (regs : List Val)
    (memBase : MemoryBase) (mem : Memory),
    parametersWellFormed width immWidth regs.length = true → (∀ v ∈ regs, width.inRange v = true) →
    (∀ v, memBase = .constant v → width.inRange v = true) → Memory.wf (Memory.unlisted width memBase) mem = true →
    (∀ c ∈ mem, width.inRange c.1 = true ∧ width.inRange c.2 = true) →
    (State.launch width immWidth prog targets regs memBase mem).Inv) ∧
  State.reset.Inv

/-- What `State.reset` holds: `pc = 0` (R122) and the default parameters of 00_scope.md section 4 are the spec's; the
empty program and the zero registers and memory are the model's choice (DESIGN CHOICE, log entries 1 and 2). -/
def Obligations.ResetState : Prop :=
  State.reset.pc = 0 ∧ State.reset.width = .bits 32 ∧ State.reset.immWidth = .bits 16 ∧ State.reset.nregs = 32 ∧
  State.reset.prog = [] ∧ State.reset.targets = [] ∧ State.reset.memBase = .constant 0 ∧ (∀ r, State.reset.readReg r = 0) ∧
  (∀ k, State.reset.memRead k = 0)

/-- A run that starts in a state with the invariant never stops on a broken memory or pc: the invariant holds all along,
and so every step of it is final, goes on, or faults as the four rules of R133 say. -/
def Obligations.ReachableStatesHaveTheInvariant : Prop :=
  ∀ s t : State, s.Inv → Reaches s t → t.Inv ∧
    (t.isFinal ∨ (∃ u, step t = .next u) ∨ (∃ e, step t = .fault (.parseError e)) ∨
      step t = .fault .registerIndexOutOfRange ∨ step t = .fault .immediateOutOfRange ∨ step t = .fault .pcOutOfRange)

/-- A `beq` of a register with itself whose target is its own index leaves the state as it is, so the run need not end
(R132). -/
def Obligations.BranchToItselfLoops : Prop :=
  ∀ (s : State) (line : Line) (r : Nat) (imm : Int), s.prog[s.pc]? = some line → decode line = .ok (.beq r r imm) →
    r < s.nregs → s.immWidth.inRange imm = true → s.branchTarget s.pc imm = s.pc → step s = .next s

/-- A program each of whose lines parses to an instruction the caller accepts, and each of whose branches has a target
that is an index of the program or one past it, never faults: every state that a run of it reaches is final or has a next
state (R129, R132, R133). -/
def Obligations.ProgramsWithinTheLimitsRunSafely : Prop :=
  ∀ s : State, s.Inv →
    (∀ line ∈ s.prog, ∃ i, decode line = .ok i ∧ i.wellFormed s.nregs s.immWidth = true) →
    (∀ (n : Nat) (line : Line) (rs rt : Nat) (imm : Int), s.prog[n]? = some line →
      decode line = .ok (.beq rs rt imm) → 0 ≤ s.branchTarget n imm ∧ s.branchTarget n imm ≤ s.prog.length) →
    safeRun s

/-! ## Memory and registers -/

/-- R126: `MemWrite` makes the key read the value written and leaves every other key; reads do not change memory, and two
keys never overlap. -/
def Obligations.MemoryIsAMapOfWholeValues : Prop :=
  ∀ (s : State) (k v : Val), Memory.wf s.unlisted s.mem = true →
    (s.memWrite k v).memRead k = v ∧ ∀ k', k' ≠ k → (s.memWrite k v).memRead k' = s.memRead k'

/-- The launch supplies a total memory (R123, R161): a launched state reads each listed key's value, and at every other key
what the base gives, the same value at every key or the value of a supplied map `M0`, its number itself where that is in
the range of `W`. How the map is held is the model's choice (DESIGN CHOICE, log entry 8). -/
def Obligations.LaunchMemoryIsTotal : Prop :=
  ∀ (width immWidth : Width) (prog : List Line) (targets : List BranchPoint) (regs : List Val) (mem : Memory) (k : Val),
    (∀ (b : MemoryBase) (v : Val), Memory.wf (Memory.unlisted width b) mem = true → (k, v) ∈ mem →
      (State.launch width immWidth prog targets regs b mem).memRead k = v) ∧
    ((∀ c ∈ mem, c.1 ≠ k) →
      (∀ v : Val, (State.launch width immWidth prog targets regs (.constant v) mem).memRead k = v) ∧
      (∀ (n : Nat) (M0 : Val → Val), (∀ j, Config.launchMemory n j = M0 j) → width.wellFormed = true →
        width.inRange (M0 k) = true →
        (State.launch width immWidth prog targets regs (.supplied n) mem).memRead k = M0 k))

/-- A step changes the value at a key only by a `sw` whose effective address is that key, so a key that no `sw` has
written holds its launch value; the value it then holds is that of the stored register (R32). -/
def Obligations.OnlySwChangesMemory : Prop :=
  ∀ (s t : State) (k : Val), Memory.wf s.unlisted s.mem = true → step s = .next t → t.memRead k ≠ s.memRead k →
    ∃ (line : Line) (rt rs : Nat) (imm : Int), s.prog[s.pc]? = some line ∧ decode line = .ok (.sw rt imm rs) ∧
      k = accessKey s imm rs ∧ t.memRead k = s.readReg rt

/-- The canonical form determines the memory: over one map of what unlisted keys hold, two canonical memories that read the
same at every key are the same list, so equal memories are equal data (log entry 8). -/
def Obligations.CanonicalMemoriesAreExtensional : Prop :=
  ∀ (u : Val → Val) (m m' : Memory), Memory.wf u m = true → Memory.wf u m' = true →
    (∀ k, Memory.read u m k = Memory.read u m' k) → m = m'

/-- No register is hardwired: a write to any register, register 0 among them, is kept and changes no other (R11, R123). -/
def Obligations.NoRegisterIsHardwired : Prop :=
  ∀ (s : State) (d : Nat) (v : Val), d < s.nregs →
    (s.writeReg d v).readReg d = v ∧ ∀ r, r ≠ d → (s.writeReg d v).readReg r = s.readReg r

/-- A `lw` of the key that a `sw` has just written reads the stored value, with the register written at once (R32, R164). -/
def Obligations.LoadAfterStoreReadsTheValue : Prop :=
  ∀ (rt rs rd : Nat) (imm : Int) (s t : State), Memory.wf s.unlisted s.mem = true → rd < s.nregs →
    exec (.sw rt imm rs) s = .next t →
    ∃ u, exec (.lw rd imm rs) t = .next u ∧ u.readReg rd = s.readReg rt

/-! ## The host's table words -/

/-- The word of each row of the opcode table decodes to the row's instruction with zero operands, and a step on the
placed word runs it; any other word decodes to nothing. How a table word becomes a line is the model's choice (DESIGN
CHOICE, log entry 10): the spec has no packed word (R61). -/
def Obligations.TableWordsRunTheirInstruction : Prop :=
  (∀ op : Opcode, decodeTableWord 8 op.opsel.toNat = some op.zeroOperands) ∧
  (∀ w : Nat, 7 ≤ w → w < 256 → decodeTableWord 8 w = none) ∧
  (∀ (op : Opcode) (s : State),
    step (s.withFetchWord 8 op.opsel.toNat) = exec op.zeroOperands (s.withFetchWord 8 op.opsel.toNat))
end

