-- ==== Sys2Proof/Laws/Arith.lean ====
section
/-! SUPPORT. Wrapping, ranges and bits: what the arithmetic of 00_scope.md section 5 gives. -/

namespace Sys2Proof

/-! ## Bits -/

/-- The bits of the difference of two bit sets. -/
theorem natAndNot_testBit (m n i : Nat) : (natAndNot m n).testBit i = (m.testBit i && !n.testBit i) := by
  simp only [natAndNot, Nat.testBit_xor, Nat.testBit_and]
  cases m.testBit i <;> cases n.testBit i <;> rfl

/-- AND acts bit by bit. -/
theorem testBit_bitAnd (a b : Int) (i : Nat) : (bitAnd a b).testBit i = (a.testBit i && b.testBit i) := by
  cases a <;> cases b <;> simp [bitAnd, Int.testBit, natAndNot_testBit, Bool.and_comm]

/-- OR acts bit by bit. -/
theorem testBit_bitOr (a b : Int) (i : Nat) : (bitOr a b).testBit i = (a.testBit i || b.testBit i) := by
  cases a <;> cases b <;> simp [bitOr, Int.testBit, natAndNot_testBit, Bool.or_comm]

/-- The spec's `bit_i`, by floor division, is the bit of the two's complement expansion. -/
theorem bitOf_eq (i : Nat) (n : Int) : bitOf i n = if n.testBit i then 1 else 0 := by
  cases n with
  | ofNat m =>
    have h : (Int.ofNat m) / ((2 ^ i : Nat) : Int) % 2 = ((m / 2 ^ i % 2 : Nat) : Int) := by simp
    simp only [bitOf, Int.testBit, Nat.testBit_eq_decide_div_mod_eq, h]
    rcases Nat.mod_two_eq_zero_or_one (m / 2 ^ i) with h | h <;> simp [h]
  | negSucc m =>
    have h : (Int.negSucc m) / ((2 ^ i : Nat) : Int) % 2 = (-(((m / 2 ^ i : Nat) : Int) + 1)) % 2 := by
      rw [Int.negSucc_ediv _ (by positivity)]; rfl
    simp only [bitOf, Int.testBit, Nat.testBit_eq_decide_div_mod_eq, h]
    generalize m / 2 ^ i = q
    rcases Nat.mod_two_eq_zero_or_one q with h | h <;> simp [h] <;> omega

/-- The low bits of an integer are those of its `k`-bit pattern. -/
theorem getLsbD_ofInt (k : Nat) (n : Int) (i : Nat) :
    (BitVec.ofInt k n).getLsbD i = (decide (i < k) && n.testBit i) := by
  cases n with
  | ofNat m =>
    rw [show BitVec.ofInt k (Int.ofNat m) = BitVec.ofNat k m from BitVec.ofInt_natCast k m]
    simp [Int.testBit, BitVec.getLsbD_ofNat]
  | negSucc m =>
    rw [BitVec.ofInt_negSucc_eq_not_ofNat, BitVec.getLsbD_not, BitVec.getLsbD_ofNat]
    by_cases h : i < k <;> simp [Int.testBit, h]

/-- The pattern of an AND is the AND of the patterns. -/
theorem ofInt_bitAnd (k : Nat) (a b : Int) :
    BitVec.ofInt k (bitAnd a b) = BitVec.ofInt k a &&& BitVec.ofInt k b := by
  apply BitVec.eq_of_getLsbD_eq
  intro i hi
  simp only [BitVec.getLsbD_and, getLsbD_ofInt, testBit_bitAnd, hi, decide_true, Bool.true_and]

/-- The pattern of an OR is the OR of the patterns. -/
theorem ofInt_bitOr (k : Nat) (a b : Int) :
    BitVec.ofInt k (bitOr a b) = BitVec.ofInt k a ||| BitVec.ofInt k b := by
  apply BitVec.eq_of_getLsbD_eq
  intro i hi
  simp only [BitVec.getLsbD_or, getLsbD_ofInt, testBit_bitOr, hi, decide_true, Bool.true_and]

/-! ## Wrapping and ranges -/

/-- Wrapping to `k` bits is the signed reading of the `k`-bit pattern. -/
theorem wrap_bits_eq_toInt (k : Nat) (n : Int) : (Width.bits k).wrap n = (BitVec.ofInt k n).toInt := by
  simp [Width.wrap, BitVec.toInt_ofInt]

/-- Wrapping to `∞` changes nothing. -/
@[simp] theorem wrap_unbounded (n : Int) : Width.unbounded.wrap n = n := rfl

/-- Every integer is in the range of `∞`. -/
@[simp] theorem inRange_unbounded (n : Int) : Width.unbounded.inRange n = true := rfl

/-- The range of `k` bits. -/
theorem inRange_bits_iff (k : Nat) (n : Int) :
    (Width.bits k).inRange n = true ↔ -((2 ^ (k - 1) : Nat) : Int) ≤ n ∧ n ≤ ((2 ^ (k - 1) : Nat) : Int) - 1 := by
  simp [Width.inRange]

/-- A nonnegative integer in range. -/
theorem inRange_ofNat (k m : Nat) : (Width.bits k).inRange (.ofNat m) = true ↔ m < 2 ^ (k - 1) := by
  rw [inRange_bits_iff]
  have h : Int.ofNat m = (m : Int) := rfl
  rw [h]; omega

/-- A negative integer in range. -/
theorem inRange_negSucc (k m : Nat) : (Width.bits k).inRange (.negSucc m) = true ↔ m < 2 ^ (k - 1) := by
  rw [inRange_bits_iff]
  have h : Int.negSucc m = -((m : Int) + 1) := rfl
  rw [h]; omega

/-- The signed reading of a pattern is in range. -/
theorem inRange_toInt {k : Nat} (x : BitVec k) : (Width.bits k).inRange x.toInt = true := by
  rw [inRange_bits_iff]
  have h1 := x.le_toInt
  have h2 := x.toInt_lt
  push_cast
  omega

/-- Wrapping leaves an in-range value alone. -/
theorem wrap_of_inRange {w : Width} {n : Int} (hw : w.wellFormed = true) (h : w.inRange n = true) : w.wrap n = n := by
  cases w with
  | unbounded => rfl
  | bits k =>
    have hk : 1 ≤ k := by simpa [Width.wellFormed] using hw
    obtain ⟨h1, h2⟩ := (inRange_bits_iff k n).1 h
    obtain ⟨j, rfl⟩ : ∃ j, k = j + 1 := ⟨k - 1, by omega⟩
    have hp : (2 : Nat) ^ (j + 1) = 2 * 2 ^ j := by ring
    simp only [Nat.add_sub_cancel] at h1 h2
    apply Int.bmod_eq_of_le <;> rw [hp] <;> push_cast at * <;> omega

/-- Wrapping gives an in-range value. -/
theorem wrap_inRange (w : Width) (n : Int) : w.inRange (w.wrap n) = true := by
  cases w with
  | unbounded => rfl
  | bits k => rw [wrap_bits_eq_toInt]; exact inRange_toInt _

/-- A value in range of a narrower width is in range of the wider one. -/
theorem inRange_of_fits {m w : Width} {n : Int} (hf : immWidthFits m w = true) (h : m.inRange n = true) :
    w.inRange n = true := by
  cases w with
  | unbounded => rfl
  | bits k =>
    cases m with
    | unbounded => simp [immWidthFits] at hf
    | bits j =>
      have hjk : 1 ≤ j ∧ j ≤ k := by simpa [immWidthFits] using hf
      have hp : 2 ^ (j - 1) ≤ 2 ^ (k - 1) := Nat.pow_le_pow_right (by omega) (by omega)
      rw [inRange_bits_iff] at *
      omega

/-- Zero is in every range. -/
theorem inRange_zero (w : Width) : w.inRange 0 = true := by
  cases w with
  | unbounded => rfl
  | bits k =>
    have hp : 0 < 2 ^ (k - 1) := by positivity
    rw [inRange_bits_iff]
    omega

end Sys2Proof
end

