-- ==== Sys2Proof/Laws/Decode.lean ====
section
/-! SUPPORT. The front end: tokens, digits, and the small lemmas of the decoder. -/

namespace Sys2Proof

/-! ## Tokens -/

/-- A separator is a white-space or a punctuation character (R44, R45). -/
theorem isWhitespace_of_separator {c : Char} (h : isWhitespace c = true ∨ isPunctuation c = true) :
    isWhitespace (if isPunctuation c then ' ' else c) = true := by
  by_cases hp : isPunctuation c = true
  · rw [if_pos hp]; decide
  · rw [if_neg hp]; exact h.resolve_right hp

/-- Splitting at a white-space character. -/
theorem splitRuns_at_whitespace (a b : Line) {c : Char} (hc : isWhitespace c = true) (run : Line) :
    splitRuns run (a ++ c :: b) = splitRuns run a ++ splitRuns [] b := by
  induction a generalizing run with
  | nil => by_cases h : run = [] <;> simp [splitRuns, hc, h]
  | cons d a ih =>
    by_cases hd : isWhitespace d = true
    · by_cases h : run = [] <;> simp [splitRuns, hd, h, ih]
    · simp [splitRuns, hd, ih]

/-- A stretch without white space is added to the run. -/
theorem splitRuns_of_run (t l run : Line) (ht : ∀ c ∈ t, isWhitespace c = false) :
    splitRuns run (t ++ l) = splitRuns (run ++ t) l := by
  induction t generalizing run with
  | nil => simp
  | cons c t ih =>
    have hc := ht c List.mem_cons_self
    simp only [List.cons_append, splitRuns, hc, Bool.false_eq_true, if_false]
    rw [ih _ fun d hd => ht d (List.mem_cons_of_mem c hd)]
    simp

/-- Replacing punctuation goes through a line. -/
@[simp] theorem replacePunctuation_append (a b : Line) :
    replacePunctuation (a ++ b) = replacePunctuation a ++ replacePunctuation b := List.map_append

/-- A stretch without punctuation is left alone. -/
theorem replacePunctuation_of_run (t : Line) (ht : ∀ c ∈ t, isPunctuation c = false) : replacePunctuation t = t := by
  induction t with
  | nil => rfl
  | cons c t ih =>
    have hc := ht c List.mem_cons_self
    have htl : replacePunctuation t = t := ih fun d hd => ht d (List.mem_cons_of_mem c hd)
    simp only [replacePunctuation, List.map_cons, hc, Bool.false_eq_true, if_false] at htl ⊢
    rw [htl]

/-! ## Digits -/

/-- A decimal digit's character is an ASCII digit of that value. -/
theorem digitChar_spec : ∀ d, d < 10 → isDigit (digitChar d) = true ∧ digitValue (digitChar d) = d := by decide

/-- An ASCII digit is neither white space, punctuation, the sigil nor a sign. -/
theorem not_special_of_isDigit {c : Char} (h : isDigit c = true) :
    isWhitespace c = false ∧ isPunctuation c = false ∧ c ≠ Config.sigil ∧ c ≠ '-' ∧ c ≠ '+' := by
  have hd : 48 ≤ c.toNat ∧ c.toNat ≤ 57 := by simpa [isDigit] using h
  have hne : ∀ d : Char, d.toNat < 48 → c ≠ d := fun d hd' he => by subst he; omega
  refine ⟨?_, ?_, hne _ (by decide), hne _ (by decide), hne _ (by decide)⟩
  · simp only [isWhitespace, Bool.or_eq_false_iff, beq_eq_false_iff_ne]
    omega
  · simp only [isPunctuation, Bool.or_eq_false_iff, beq_eq_false_iff_ne]
    exact ⟨⟨hne _ (by decide), hne _ (by decide)⟩, hne _ (by decide)⟩

/-- One digit more at the end. -/
theorem decimalValue_snoc (ds : Line) (c : Char) : decimalValue (ds ++ [c]) = 10 * decimalValue ds + digitValue c := by
  simp [decimalValue, List.foldl_append]

/-- The digits of a number, with fuel enough: digits only, at least one, and of that value. -/
theorem decimalDigitsFuel_spec (fuel n : Nat) (h : n < fuel) :
    decimalDigitsFuel fuel n ≠ [] ∧ (decimalDigitsFuel fuel n).all isDigit = true ∧
      decimalValue (decimalDigitsFuel fuel n) = n := by
  induction fuel generalizing n with
  | zero => omega
  | succ fuel ih =>
    unfold decimalDigitsFuel
    split
    · next hn =>
      obtain ⟨h1, h2⟩ := digitChar_spec n hn
      simp [h1, h2, decimalValue]
    · next hn =>
      obtain ⟨_, h2, h3⟩ := ih (n / 10) (by omega)
      obtain ⟨d1, d2⟩ := digitChar_spec (n % 10) (by omega)
      refine ⟨by simp, ?_, ?_⟩
      · rw [List.all_append, h2]; simp [d1]
      · rw [decimalValue_snoc, h3, d2]; omega

/-- The digits of a number are digits only. -/
theorem decimalDigits_digits (n : Nat) : ∀ c ∈ decimalDigits n, isDigit c = true :=
  fun c hc => List.all_eq_true.1 (decimalDigitsFuel_spec (n + 1) n (by omega)).2.1 c hc

/-- The digits of a number read back as the number. -/
theorem decimal?_decimalDigits (n : Nat) : decimal? (decimalDigits n) = some n := by
  obtain ⟨h1, h2, h3⟩ := decimalDigitsFuel_spec (n + 1) n (by omega)
  unfold decimal? decimalDigits
  rw [if_pos ⟨h1, h2⟩, h3]

/-- What `decimal?` accepts. -/
theorem decimal?_eq_some (ds : Line) (n : Nat) :
    decimal? ds = some n ↔ ds ≠ [] ∧ (∀ c ∈ ds, isDigit c = true) ∧ n = decimalValue ds := by
  unfold decimal?
  split
  · next h =>
    rw [Option.some_inj, eq_comm (a := decimalValue ds)]
    exact ⟨fun hn => ⟨h.1, List.all_eq_true.1 h.2, hn⟩, fun hn => hn.2.2⟩
  · next h => simp only [List.all_eq_true] at h; simp; tauto

/-! ## Errors of the operand tokens -/

/-- A register token fails in one way only. -/
theorem regToken_error {t : Line} {e : BlockError} (h : regToken t = .error e) : e = .malformedInstruction := by
  unfold regToken at h
  repeat' split at h
  all_goals cases h <;> rfl

/-- An immediate token fails in one way only. -/
theorem immToken_error {t : Line} {e : BlockError} (h : immToken t = .error e) : e = .malformedInstruction := by
  unfold immToken at h
  repeat' split at h
  all_goals cases h <;> rfl

/-- The operand tokens of any format fail in one way only. -/
theorem decodeOperands_error {op : Opcode} {t1 t2 t3 : Line} {e : BlockError}
    (h : decodeOperands op t1 t2 t3 = .error e) : e = .malformedInstruction := by
  have hr := fun t => regToken_error (t := t) (e := e)
  have hi := fun t => immToken_error (t := t) (e := e)
  cases h1 : regToken t1 <;> cases h2 : regToken t2 <;> cases h3 : regToken t3 <;> cases h2' : immToken t2 <;>
    cases h3' : immToken t3 <;> cases op <;>
    simp only [decodeOperands, h1, h2, h3, h2', h3', bind, Except.bind, pure, Except.pure, reduceCtorEq,
      Except.error.injEq] at h <;>
    (subst h; first
      | exact hr _ h1 | exact hr _ h2 | exact hr _ h3 | exact hi _ h2' | exact hi _ h3')

/-! ## Opcodes -/

/-- An opcode's own name is its token. -/
@[simp] theorem opcodeToken_name (op : Opcode) : opcodeToken op.name = .ok op := by
  cases op <;> decide

/-- What the opcode token accepts. -/
theorem opcodeToken_ok {t : Line} {op : Opcode} (h : opcodeToken t = .ok op) : t = op.name := by
  unfold opcodeToken at h
  split at h
  · next o ho =>
    cases h
    have hb := List.find?_some ho
    exact (beq_iff_eq.1 hb).symm
  · cases h

/-- The code of an opcode is the opcode's. -/
@[simp] theorem opcodeOfSelect_opsel (op : Opcode) : opcodeOfSelect op.opsel = .ok op := by
  cases op <;> rfl

end Sys2Proof
end

