-- ==== Sys2Proof/Laws/State.lean ====
section
/-! SUPPORT. One lemma per field per update of State, true by rfl. -/

namespace Sys2Proof.Machine

/-! ## writeReg -/

@[simp] theorem State.writeReg_width (s : State) (r : Nat) (v : Val) : (s.writeReg r v).width = s.width := rfl
@[simp] theorem State.writeReg_immWidth (s : State) (r : Nat) (v : Val) : (s.writeReg r v).immWidth = s.immWidth := rfl
@[simp] theorem State.writeReg_prog (s : State) (r : Nat) (v : Val) : (s.writeReg r v).prog = s.prog := rfl
@[simp] theorem State.writeReg_targets (s : State) (r : Nat) (v : Val) : (s.writeReg r v).targets = s.targets := rfl
@[simp] theorem State.writeReg_regs (s : State) (r : Nat) (v : Val) : (s.writeReg r v).regs = s.regs.set r v := rfl
@[simp] theorem State.writeReg_memBase (s : State) (r : Nat) (v : Val) : (s.writeReg r v).memBase = s.memBase := rfl
@[simp] theorem State.writeReg_mem (s : State) (r : Nat) (v : Val) : (s.writeReg r v).mem = s.mem := rfl
@[simp] theorem State.writeReg_pc (s : State) (r : Nat) (v : Val) : (s.writeReg r v).pc = s.pc := rfl

/-! ## memWrite -/

@[simp] theorem State.memWrite_width (s : State) (k v : Val) : (s.memWrite k v).width = s.width := rfl
@[simp] theorem State.memWrite_immWidth (s : State) (k v : Val) : (s.memWrite k v).immWidth = s.immWidth := rfl
@[simp] theorem State.memWrite_prog (s : State) (k v : Val) : (s.memWrite k v).prog = s.prog := rfl
@[simp] theorem State.memWrite_targets (s : State) (k v : Val) : (s.memWrite k v).targets = s.targets := rfl
@[simp] theorem State.memWrite_regs (s : State) (k v : Val) : (s.memWrite k v).regs = s.regs := rfl
@[simp] theorem State.memWrite_memBase (s : State) (k v : Val) : (s.memWrite k v).memBase = s.memBase := rfl
@[simp] theorem State.memWrite_mem (s : State) (k v : Val) : (s.memWrite k v).mem = Memory.write s.unlisted s.mem k v :=
  rfl
@[simp] theorem State.memWrite_pc (s : State) (k v : Val) : (s.memWrite k v).pc = s.pc := rfl

/-! ## advance -/

@[simp] theorem State.advance_width (s : State) : s.advance.width = s.width := rfl
@[simp] theorem State.advance_immWidth (s : State) : s.advance.immWidth = s.immWidth := rfl
@[simp] theorem State.advance_prog (s : State) : s.advance.prog = s.prog := rfl
@[simp] theorem State.advance_targets (s : State) : s.advance.targets = s.targets := rfl
@[simp] theorem State.advance_regs (s : State) : s.advance.regs = s.regs := rfl
@[simp] theorem State.advance_memBase (s : State) : s.advance.memBase = s.memBase := rfl
@[simp] theorem State.advance_mem (s : State) : s.advance.mem = s.mem := rfl
@[simp] theorem State.advance_pc (s : State) : s.advance.pc = s.pc + 1 := rfl

/-! ## loadLine -/

@[simp] theorem State.loadLine_width (s : State) (l : Line) : (s.loadLine l).width = s.width := rfl
@[simp] theorem State.loadLine_immWidth (s : State) (l : Line) : (s.loadLine l).immWidth = s.immWidth := rfl
@[simp] theorem State.loadLine_prog (s : State) (l : Line) : (s.loadLine l).prog = placeLine s.prog s.pc l := rfl
@[simp] theorem State.loadLine_targets (s : State) (l : Line) : (s.loadLine l).targets = s.targets := rfl
@[simp] theorem State.loadLine_regs (s : State) (l : Line) : (s.loadLine l).regs = s.regs := rfl
@[simp] theorem State.loadLine_memBase (s : State) (l : Line) : (s.loadLine l).memBase = s.memBase := rfl
@[simp] theorem State.loadLine_mem (s : State) (l : Line) : (s.loadLine l).mem = s.mem := rfl
@[simp] theorem State.loadLine_pc (s : State) (l : Line) : (s.loadLine l).pc = s.pc := rfl

/-! ## What the accessors read after an update -/

@[simp] theorem State.nregs_writeReg (s : State) (r : Nat) (v : Val) : (s.writeReg r v).nregs = s.nregs :=
  List.length_set

@[simp] theorem State.nregs_memWrite (s : State) (k v : Val) : (s.memWrite k v).nregs = s.nregs := rfl

@[simp] theorem State.unlisted_memWrite (s : State) (k v : Val) : (s.memWrite k v).unlisted = s.unlisted := rfl

@[simp] theorem State.unlisted_writeReg (s : State) (r : Nat) (v : Val) : (s.writeReg r v).unlisted = s.unlisted := rfl

@[simp] theorem State.unlisted_advance (s : State) : s.advance.unlisted = s.unlisted := rfl

@[simp] theorem State.readReg_memWrite (s : State) (k v : Val) (r : Nat) : (s.memWrite k v).readReg r = s.readReg r :=
  rfl

@[simp] theorem State.readReg_advance (s : State) (r : Nat) : s.advance.readReg r = s.readReg r := rfl

@[simp] theorem State.memRead_writeReg (s : State) (r : Nat) (v : Val) (k : Val) :
    (s.writeReg r v).memRead k = s.memRead k := rfl

@[simp] theorem State.memRead_advance (s : State) (k : Val) : s.advance.memRead k = s.memRead k := rfl

/-- The register list read by index is the list read with its default 0. -/
theorem State.readReg_set (s : State) (d r : Nat) (v : Val) :
    (s.writeReg d v).readReg r = if d = r ∧ d < s.nregs then v else s.readReg r := by
  simp only [State.readReg, State.writeReg_regs, State.nregs, List.getD_eq_getElem?_getD, List.getElem?_set]
  by_cases h : d = r
  · subst h
    by_cases h' : d < s.regs.length
    · simp [h']
    · simp [h']
  · simp [h]

/-- Where a line is placed, it is read. -/
theorem placeLine_get (prog : List Line) (n : Nat) (line : Line) : (placeLine prog n line)[n]? = some line := by
  unfold placeLine
  split
  · next h => simp [h]
  · next h =>
    have hlen : (prog ++ List.replicate (n - prog.length) ([] : Line)).length = n := by simp; omega
    rw [List.getElem?_append_right (by omega)]
    simp [hlen]

end Sys2Proof.Machine
end

