-- ==== Sys2Proof/Laws/Exec.lean ====
section
/-! SUPPORT. What each shared operation of a step can do, said once. -/

namespace Sys2Proof.Machine

/-- Every meaning is the datapath under the opcode's row. -/
theorem exec_eq_runInstr (i : Instr) (s : State) : exec i s = runInstr i s := by
  cases i <;> rfl

/-- The datapath past its two checks. -/
theorem datapath_eq {cv : ControlVector} {i : Instr} {s : State} {iv : Val} (hr : indicesInRange i s = true)
    (hi : takeImmediate i s = .ok iv) :
    datapath cv i s =
      pcStage cv (alu s.width i.opcode (operandA i s) (operandB cv i iv s)) iv
        (writeBackStage cv (destination cv i)
          (writeBackValue cv (alu s.width i.opcode (operandA i s) (operandB cv i iv s))
            (memoryReadStage cv (alu s.width i.opcode (operandA i s) (operandB cv i iv s)) s))
          (storeStage cv (alu s.width i.opcode (operandA i s) (operandB cv i iv s)) (storeValue i s) s)) := by
  simp [datapath, hr, hi]

/-- The datapath where a register index is out of range. -/
theorem datapath_index_fault {cv : ControlVector} {i : Instr} {s : State} (hr : indicesInRange i s = false) :
    datapath cv i s = .fault .registerIndexOutOfRange := by
  simp [datapath, hr]

/-- The datapath where the immediate is refused. -/
theorem datapath_immediate_fault {cv : ControlVector} {i : Instr} {s : State} {f : Fault}
    (hr : indicesInRange i s = true) (hi : takeImmediate i s = .error f) : datapath cv i s = .fault f := by
  simp [datapath, hr, hi]

/-- A datapath that goes on has passed both checks. -/
theorem datapath_next {cv : ControlVector} {i : Instr} {s t : State} (h : datapath cv i s = .next t) :
    indicesInRange i s = true ∧ ∃ iv, takeImmediate i s = .ok iv := by
  by_cases hr : indicesInRange i s = true
  · refine ⟨hr, ?_⟩
    cases hi : takeImmediate i s with
    | ok iv => exact ⟨iv, rfl⟩
    | error f => rw [datapath_immediate_fault hr hi] at h; cases h
  · rw [datapath_index_fault (by simpa using hr)] at h; cases h

/-- What the register index check says. -/
theorem indicesInRange_iff (i : Instr) (s : State) : indicesInRange i s = true ↔ ∀ r ∈ i.ops, r < s.nregs := by
  simp [indicesInRange, Instr.indicesBelow]

/-- What the immediate phase gives. -/
theorem takeImmediate_cases (i : Instr) (s : State) :
    (i.opcode.format = .r ∧ takeImmediate i s = .ok 0) ∨
    (i.opcode.format ≠ .r ∧ s.immWidth.inRange i.imm = true ∧ takeImmediate i s = .ok i.imm) ∨
    (i.opcode.format ≠ .r ∧ s.immWidth.inRange i.imm = false ∧ takeImmediate i s = .error .immediateOutOfRange) := by
  cases h : i.opcode.format <;> cases h' : s.immWidth.inRange i.imm <;> simp [takeImmediate, immVal, h, h']

/-- What a jump can do: it stops outside the program, or sets the pc and nothing else. -/
theorem State.jump_cases (s : State) (n : Int) :
    ((n < 0 ∨ (s.prog.length : Int) < n) ∧ s.jump n = .fault .pcOutOfRange) ∨
    (0 ≤ n ∧ n ≤ s.prog.length ∧ s.jump n = .next { s with pc := n.toNat }) := by
  unfold State.jump
  split
  · next h => exact .inl ⟨h, rfl⟩
  · next h => exact .inr ⟨by omega, by omega, rfl⟩

/-- An operation that changes at most registers, memory cells and the pc. -/
theorem storeStage_cases (cv : ControlVector) (r : AluResult) (st : Val) (s : State) :
    storeStage cv r st s = s ∨ ∃ k, num? r = some k ∧ storeStage cv r st s = s.memWrite k st := by
  unfold storeStage
  split
  · cases h : num? r with
    | none => exact .inl rfl
    | some k => exact .inr ⟨k, rfl, rfl⟩
  · exact .inl rfl

/-- What the register write can do. -/
theorem writeBackStage_cases (cv : ControlVector) (d : Option Nat) (w : Option Val) (s : State) :
    writeBackStage cv d w s = s ∨ ∃ r v, d = some r ∧ w = some v ∧ writeBackStage cv d w s = s.writeReg r v := by
  unfold writeBackStage
  split
  · cases d with
    | none => cases w <;> exact .inl rfl
    | some r =>
      cases w with
      | none => exact .inl rfl
      | some v => exact .inr ⟨r, v, rfl, rfl, rfl⟩
  · exact .inl rfl

/-- What the last phase can do: the next pc, a jump, or a stop. -/
theorem pcStage_next {cv : ControlVector} {r : AluResult} {iv : Val} {s t : State} (h : pcStage cv r iv s = .next t) :
    (branchTaken cv r = false ∧ t = s.advance) ∨
    (branchTaken cv r = true ∧ 0 ≤ s.branchTarget s.pc iv ∧ s.branchTarget s.pc iv ≤ s.prog.length ∧
      t = { s with pc := (s.branchTarget s.pc iv).toNat }) := by
  unfold pcStage at h
  split at h
  · next hb =>
    rcases s.jump_cases (s.branchTarget s.pc iv) with ⟨_, hj⟩ | ⟨h0, h1, hj⟩
    · rw [hj] at h; cases h
    · rw [hj] at h; cases h; exact .inr ⟨hb, h0, h1, rfl⟩
  · next hb => cases h; exact .inl ⟨by simpa using hb, rfl⟩

/-- What a fetch can do. -/
theorem State.fetch_cases (s : State) :
    (s.prog[s.pc]? = none ∧ s.fetch = .error (if s.pc = s.prog.length then .endOfRun else .pcOutOfRange)) ∨
    (∃ line e, s.prog[s.pc]? = some line ∧ decode line = .error e ∧ s.fetch = .error (.parseError e)) ∨
    (∃ line i, s.prog[s.pc]? = some line ∧ decode line = .ok i ∧ s.fetch = .ok i) := by
  cases h : s.prog[s.pc]? with
  | none => exact .inl ⟨rfl, by simp [State.fetch, h]⟩
  | some line =>
    cases h' : decode line with
    | error e => exact .inr (.inl ⟨line, e, rfl, h', by simp [State.fetch, h, h']⟩)
    | ok i => exact .inr (.inr ⟨line, i, rfl, h', by simp [State.fetch, h, h']⟩)

/-- A step that goes on has fetched an instruction and run it. -/
theorem step_next {s t : State} (h : step s = .next t) : ∃ i, s.fetch = .ok i ∧ exec i s = .next t := by
  unfold step at h
  cases hf : s.fetch with
  | error f => rw [hf] at h; cases h
  | ok i => rw [hf] at h; exact ⟨i, rfl, h⟩

end Sys2Proof.Machine
end

