-- ==== Sys2Proof/Laws/Memory.lean ====
section
/-! SUPPORT. Data memory: every operation keeps the canonical form, and what a read gives after a write. -/

namespace Sys2Proof.Machine

/-- The canonical form of a list with a first cell. -/
theorem Memory.wf_cons (u : Val → Val) (c : Val × Val) (m : Memory) :
    Memory.wf u (c :: m) = true ↔ c.2 ≠ u c.1 ∧ (∀ d ∈ m, c.1 < d.1) ∧ Memory.wf u m = true := by
  simp [Memory.wf, and_assoc]

/-- A cell below every key of a canonical memory may stand in front of it. -/
theorem Memory.consCell_wf {u : Val → Val} {k v : Val} {m : Memory} (hm : Memory.wf u m = true) (hk : ∀ d ∈ m, k < d.1) :
    Memory.wf u (Memory.consCell u k v m) = true := by
  unfold Memory.consCell
  split
  · exact hm
  · next hv => exact (Memory.wf_cons _ _ _).2 ⟨hv, hk, hm⟩

/-- The cells of a memory with one cell more. -/
theorem Memory.mem_consCell {u : Val → Val} {k v : Val} {m : Memory} {d : Val × Val} (h : d ∈ Memory.consCell u k v m) :
    d = (k, v) ∨ d ∈ m := by
  unfold Memory.consCell at h
  split at h
  · exact .inr h
  · simpa using h

/-- A cell after a write is the cell written or was there before. -/
theorem Memory.mem_write {u : Val → Val} {m : Memory} {k v : Val} {d : Val × Val} (h : d ∈ Memory.write u m k v) :
    d = (k, v) ∨ d ∈ m := by
  induction m with
  | nil => simpa using Memory.mem_consCell (m := []) h
  | cons c m ih =>
    unfold Memory.write at h
    split at h
    · exact Memory.mem_consCell h
    · split at h
      · exact (Memory.mem_consCell h).imp_right (List.mem_cons_of_mem c)
      · rcases List.mem_cons.1 h with h | h
        · exact .inr (h ▸ List.mem_cons_self)
        · exact (ih h).imp_right (List.mem_cons_of_mem c)

/-- A write keeps the canonical form. -/
theorem Memory.write_wf {u : Val → Val} {m : Memory} (hm : Memory.wf u m = true) (k v : Val) : Memory.wf u (Memory.write u m k v) = true := by
  induction m with
  | nil => exact Memory.consCell_wf rfl (by simp)
  | cons c m ih =>
    obtain ⟨hc, hlt, hwf⟩ := (Memory.wf_cons u c m).1 hm
    unfold Memory.write
    split
    · next hk =>
      refine Memory.consCell_wf hm fun d hd => ?_
      rcases List.mem_cons.1 hd with rfl | hd
      · exact hk
      · exact lt_trans hk (hlt d hd)
    · next hk =>
      split
      · next heq => exact Memory.consCell_wf hwf fun d hd => heq ▸ hlt d hd
      · next hne =>
        refine (Memory.wf_cons _ _ _).2 ⟨hc, fun d hd => ?_, ih hwf⟩
        rcases Memory.mem_write hd with rfl | hd
        · exact lt_of_le_of_ne (not_lt.1 hk) (Ne.symm hne)
        · exact hlt d hd

/-- A key below every listed key reads as an unlisted key. -/
theorem Memory.read_below {u : Val → Val} {m : Memory} {k : Val} (h : ∀ d ∈ m, k < d.1) : Memory.read u m k = u k := by
  induction m with
  | nil => rfl
  | cons c m ih =>
    have hc := h c List.mem_cons_self
    simp only [Memory.read, if_neg (ne_of_lt hc)]
    exact ih fun d hd => h d (List.mem_cons_of_mem c hd)

/-- What a memory with one cell more reads as at that cell's key. -/
theorem Memory.read_consCell_self {u : Val → Val} {k v : Val} {m : Memory} (h : ∀ d ∈ m, k < d.1) :
    Memory.read u (Memory.consCell u k v m) k = v := by
  unfold Memory.consCell
  split
  · next hv => rw [Memory.read_below h, hv]
  · simp [Memory.read]

/-- What a memory with one cell more reads as at another key. -/
theorem Memory.read_consCell_other {u : Val → Val} {k k' v : Val} {m : Memory} (h : k' ≠ k) :
    Memory.read u (Memory.consCell u k v m) k' = Memory.read u m k' := by
  unfold Memory.consCell
  split
  · rfl
  · simp [Memory.read, h]

/-- A canonical memory reads the value just written. -/
theorem Memory.read_write_self {u : Val → Val} {m : Memory} (hm : Memory.wf u m = true) (k v : Val) :
    Memory.read u (Memory.write u m k v) k = v := by
  induction m with
  | nil => exact Memory.read_consCell_self (by simp)
  | cons c m ih =>
    obtain ⟨_, hlt, hwf⟩ := (Memory.wf_cons u c m).1 hm
    unfold Memory.write
    split
    · next hk =>
      refine Memory.read_consCell_self fun d hd => ?_
      rcases List.mem_cons.1 hd with rfl | hd
      · exact hk
      · exact lt_trans hk (hlt d hd)
    · split
      · next heq => exact Memory.read_consCell_self fun d hd => heq ▸ hlt d hd
      · next hne => simpa [Memory.read, hne] using ih hwf

/-- A write leaves every other key alone, in any memory. -/
theorem Memory.read_write_other {u : Val → Val} (m : Memory) {k k' : Val} (v : Val) (h : k' ≠ k) :
    Memory.read u (Memory.write u m k v) k' = Memory.read u m k' := by
  induction m with
  | nil => exact Memory.read_consCell_other h
  | cons c m ih =>
    unfold Memory.write
    split
    · exact Memory.read_consCell_other h
    · split
      · next heq => rw [Memory.read_consCell_other h]; simp [Memory.read, ← heq, h]
      · simp [Memory.read, ih]

/-- A read of a memory is an unlisted key's value or a cell's. -/
theorem Memory.read_cases (u : Val → Val) (m : Memory) (k : Val) :
    Memory.read u m k = u k ∨ (k, Memory.read u m k) ∈ m := by
  induction m with
  | nil => exact .inl rfl
  | cons c m ih =>
    by_cases h : k = c.1
    · right; simp [Memory.read, h]
    · simpa [Memory.read, h] using ih.imp_right .inr

/-- What an unlisted key holds lies in the range of `W`, for a base whose constant does. -/
theorem Memory.unlisted_inRange {w : Width} {b : MemoryBase} (hb : ∀ v, b = .constant v → w.inRange v = true) (k : Val) :
    w.inRange (Memory.unlisted w b k) = true := by
  cases b with
  | constant v => exact hb v rfl
  | supplied n => exact wrap_inRange w _

end Sys2Proof.Machine
end

