-- ==== Sys2Proof/Laws/PerInstr.lean ====
section
/-! SUPPORT. Per-instruction statements. OperandRoles: `ops[0]` is `rs`, `ops[1]` is `rt` and `ops[2]`, where there is
one, is `rd` (30_encoding.md section 1), and the Decoded Instruction has the shape of its format (R18). -/

/-- The roles of the operand positions, and the shape of the Decoded Instruction. -/
def Sys2Proof.Laws.OperandRoles.Statement (i : Sys2Proof.Instr) : Prop :=
  i.ops[0]? = some i.rs ∧ i.ops[1]? = some i.rt ∧ i.ops[2]? = i.rd? ∧ i.decoded.wellFormed = true

theorem Sys2Proof.Laws.OperandRoles.add (rd rs rt : Nat) : Statement (.add rd rs rt) := ⟨rfl, rfl, rfl, rfl⟩

theorem Sys2Proof.Laws.OperandRoles.sub (rd rs rt : Nat) : Statement (.sub rd rs rt) := ⟨rfl, rfl, rfl, rfl⟩

theorem Sys2Proof.Laws.OperandRoles.lw (rt : Nat) (imm : Int) (rs : Nat) : Statement (.lw rt imm rs) :=
  ⟨rfl, rfl, rfl, rfl⟩

theorem Sys2Proof.Laws.OperandRoles.sw (rt : Nat) (imm : Int) (rs : Nat) : Statement (.sw rt imm rs) :=
  ⟨rfl, rfl, rfl, rfl⟩

theorem Sys2Proof.Laws.OperandRoles.beq (rs rt : Nat) (imm : Int) : Statement (.beq rs rt imm) := ⟨rfl, rfl, rfl, rfl⟩

theorem Sys2Proof.Laws.OperandRoles.and (rd rs rt : Nat) : Statement (.and rd rs rt) := ⟨rfl, rfl, rfl, rfl⟩

theorem Sys2Proof.Laws.OperandRoles.or (rd rs rt : Nat) : Statement (.or rd rs rt) := ⟨rfl, rfl, rfl, rfl⟩
end

