-- ==== Sys2Proof/Tests/Slice0.lean ====
section
/-! SUPPORT. The model's own tests: vectors of 95_test_vectors.md and hand calculations from the rules, the smoke tests
of the checks, and for every statement with hypotheses a concrete instance that meets them all. -/

namespace Sys2Proof.Tests

open Sys2Proof Sys2Proof.Machine

/-! ## Small states and what a test reads of an outcome -/

/-- A launch with the default widths and the given program, branch targets, registers and memory, unlisted keys 0. -/
def small (prog : List String) (targets : List BranchPoint) (regs : List Val) (mem : Memory) : State :=
  State.launch (.bits 32) (.bits 16) (prog.map String.toList) targets regs (.constant 0) mem

/-- Register `r` of the next state, if there is one. -/
def regAfter (o : Host.Outcome State Fault Refusal) (r : Nat) : Option Val :=
  match o with
  | .next s => some (s.readReg r)
  | .fault _ => none
  | .refused _ => none

/-- The value at key `k` in the next state, if there is one. -/
def memAfter (o : Host.Outcome State Fault Refusal) (k : Val) : Option Val :=
  match o with
  | .next s => some (s.memRead k)
  | .fault _ => none
  | .refused _ => none

/-- The pc of the next state, if there is one. -/
def pcAfter (o : Host.Outcome State Fault Refusal) : Option Nat :=
  match o with
  | .next s => some s.pc
  | .fault _ => none
  | .refused _ => none

/-- The fault of an outcome, if it is one. -/
def faultOf (o : Host.Outcome State Fault Refusal) : Option Fault :=
  match o with
  | .next _ => none
  | .fault f => some f
  | .refused _ => none

/-! ## Decoding: lines written out from the spec (ids of 95_test_vectors.md) -/

theorem test_decode_add : decode "add $3, $1, $2".toList = .ok (.add 3 1 2) := by decide        -- S1
theorem test_decode_sub : decode "sub $4, $3, $1".toList = .ok (.sub 4 3 1) := by decide        -- PROG1 line 1
theorem test_decode_and : decode "and $5, $3, $4".toList = .ok (.and 5 3 4) := by decide        -- PROG1 line 2
theorem test_decode_or : decode "  or\t$6 , $3,$4  ".toList = .ok (.or 6 3 4) := by decide      -- P5
theorem test_decode_lw : decode "lw $2, 4($3)".toList = .ok (.lw 2 4 3) := by decide            -- S2
theorem test_decode_sw : decode "sw $2, -8($3)".toList = .ok (.sw 2 (-8) 3) := by decide        -- S3
theorem test_decode_beq : decode "beq $1, $2, +16".toList = .ok (.beq 1 2 16) := by decide      -- P12
theorem test_parse_doubled_commas : parse "add  $1,,$2,,$3".toList = .ok ⟨.add, [2, 3, 1], 0⟩ := by decide  -- P11
theorem test_parse_leading_zeros : parse "sw $007, -0($010)".toList = .ok ⟨.sw, [10, 7], 0⟩ := by decide    -- P13
theorem test_parse_unbounded :
    parse "lw $4294967296, 99999999999999999999($0)".toList = .ok ⟨.lw, [0, 4294967296], 99999999999999999999⟩ :=
  rfl                                                                                           -- P18
theorem test_parse_opcode_before_count : parse "xor".toList = .error .unknownOpcode := by decide            -- P33
theorem test_parse_case : parse "ADD $1, $2, $3".toList = .error .unknownOpcode := by decide                -- P36
theorem test_parse_missing_offset : parse "lw $2, ($3)".toList = .error .malformedInstruction := by decide  -- P41
theorem test_parse_two_signs : parse "lw $2, +-4($3)".toList = .error .malformedInstruction := by decide    -- P55
theorem test_parse_empty : parse "  ,() ".toList = .error .malformedInstruction := by decide                -- P31
theorem test_parse_other_digit : parse "add $١, $2, $3".toList = .error .malformedInstruction := by decide  -- P62
theorem test_reason_register : malformedReason "add $3, 1, $2".toList = some .badRegisterToken := by decide -- P45
theorem test_reason_immediate : malformedReason "beq $1, $2, loop".toList = some .badImmediateToken := by
  decide                                                                                        -- P57
theorem test_encode_lw : encode (.lw 2 4 3) = "lw $2, 4($3)".toList := by decide                -- R64
theorem test_encode_sw : encode (.sw 12 (-8) 3) = "sw $12, -8($3)".toList := by decide          -- R64
theorem test_encode_add : encode (.add 3 1 2) = "add $3, $1, $2".toList := by decide            -- R64
theorem test_encode_beq : encode (.beq 1 2 16) = "beq $1, $2, 16".toList := by decide           -- R64

/-! ## The checks refuse an ill-formed term each -/

theorem test_wf_index : (Instr.add 32 0 0).indicesBelow 32 = false := by decide                 -- F2
theorem test_wf_immediate : (Instr.lw 31 32768 0).immAccepted (.bits 16) = false := by decide   -- F3
theorem test_wf_instr : (Instr.lw 32 0 0).wellFormed 32 (.bits 16) = false := by decide
theorem test_wf_decoded_count : DecodedInstruction.wellFormed ⟨.add, [1, 2], 0⟩ = false := by decide
theorem test_wf_decoded_immediate : DecodedInstruction.wellFormed ⟨.or, [1, 2, 3], 4⟩ = false := by decide
theorem test_wf_width : Width.wellFormed (.bits 0) = false := by decide
theorem test_wf_imm_width : immWidthFits (.bits 33) (.bits 32) = false := by decide
theorem test_wf_imm_width_zero : immWidthFits (.bits 0) .unbounded = false := by decide
theorem test_wf_imm_width_infinite : immWidthFits .unbounded (.bits 32) = false := by decide
theorem test_wf_nregs : parametersWellFormed (.bits 32) (.bits 16) 0 = false := by decide
theorem test_wf_memory_order : Memory.wf (fun _ => 0) [(2, 7), (1, 7)] = false := by decide
theorem test_wf_memory_unlisted : Memory.wf (fun _ => 0) [(1, 0)] = false := by decide

/-! ## Control lookup and evaluators -/

theorem test_dont_care_is_not_zero : ctl .sw ≠ ⟨.zero, .one, .zero, .zero, .one, .zero, .zero⟩ := by decide  -- K14
theorem test_ctl_unassigned : ctlPort 7#3 = .error .unknownOpcode := by decide                  -- K8
theorem test_circuit_beq : refines ⟨true, false, true, false, false, false, true⟩ (ctl .beq) = true := by decide -- K5
theorem test_alu_add_w8 : alu (.bits 8) .add 100 100 = .num (-56) := by decide                  -- A43
theorem test_alu_sub_w8 : alu (.bits 8) .sub (-100) 100 = .num 56 := by decide                  -- A44
theorem test_alu_lw_w8 : alu (.bits 8) .lw (-128) (-1) = .num 127 := by decide                  -- A42
theorem test_alu_and_w_infinite : alu .unbounded .and (-2147483649) 2147483647 = .num 2147483647 := by
  decide                                                                                        -- PROG4 step 5
theorem test_alu_or : alu (.bits 32) .or 85 51 = .num 119 := by decide                          -- A14
theorem test_alu_unassigned : aluPort (.bits 32) 7#3 1 2 = .error .unknownOpcode := by decide   -- A23

/-! ## One step of each instruction -/

theorem test_step_add_same_register :                                                           -- F11
    regAfter (step (small ["add $1, $1, $1"] [] [0, 21] [])) 1 = some 42 := by decide
theorem test_step_add_register_zero :                                                           -- F14
    regAfter (step (small ["add $0, $1, $1"] [] [0, 4] [])) 0 = some 8 := by decide
theorem test_step_sub_order :                                                                   -- A4
    regAfter (step (small ["sub $2, $0, $1"] [] [3, 5, 0] [])) 2 = some (-2) := by decide
theorem test_step_sub_wraps :                                                                   -- A6
    regAfter (step (small ["sub $2, $0, $1"] [] [-2147483648, 1, 0] [])) 2 = some 2147483647 := by decide
theorem test_step_and :                                                                         -- A8
    regAfter (step (small ["and $2, $0, $1"] [] [-4, -6, 0] [])) 2 = some (-8) := by decide
theorem test_step_or :                                                                          -- A11
    regAfter (step (small ["or $2, $0, $1"] [] [-4, 1, 0] [])) 2 = some (-3) := by decide
theorem test_step_lw_same_register :                                                            -- F12
    regAfter (step (small ["lw $3, 0($3)"] [] [0, 0, 0, 50] [(50, 9)])) 3 = some 9 := by decide
theorem test_step_lw_wraps :                                                                    -- A17
    regAfter (step (small ["lw $1, 1($0)"] [] [2147483647, 0] [(-2147483648, 5)])) 1 = some 5 := by decide
theorem test_step_lw_never_zero :                                                               -- R123: M0 total
    regAfter (step { small ["lw $1, 0($0)"] [] [1000000, 0] [] with memBase := .constant 7 }) 1 = some 7 := by decide
theorem test_step_sw_same_register :                                                            -- F13
    memAfter (step (small ["sw $3, 0($3)"] [] [0, 0, 0, 50] [])) 50 = some 50 := by decide
theorem test_step_sw_negative_key :                                                             -- F15
    memAfter (step (small ["sw $2, -1($0)"] [] [0, 0, 7] [])) (-1) = some 7 := by decide
theorem test_step_beq_to_end :                                                                  -- F8
    pcAfter (step (small ["beq $0, $0, 0"] [⟨0, 0, 1⟩] [0] [])) = some 1 := by decide
theorem test_step_beq_not_taken :                                                               -- F10
    pcAfter (step (small ["beq $1, $0, 100"] [] [0, 1] [])) = some 1 := by decide

/-! ## Stops -/

theorem test_fault_parse :                                                                      -- F1
    faultOf (step (small ["xor $1, $2, $3"] [] [0] [])) = some (.parseError .unknownOpcode) := by decide
theorem test_fault_parse_first :                                                                -- F17
    faultOf (step (small ["add $99, $2"] [] [0] [])) = some (.parseError .malformedInstruction) := by decide
theorem test_fault_index_first :                                                                -- F4
    faultOf (step (small ["lw $32, 99999($0)"] [] [0] [])) = some .registerIndexOutOfRange := by decide
theorem test_fault_immediate_not_taken :                                                        -- F5
    faultOf (step (small ["beq $1, $0, 40000"] [] [0, 1] [])) = some .immediateOutOfRange := by decide
theorem test_fault_pc_past_end :                                                                -- F6
    faultOf (step (small ["beq $0, $0, 5"] [⟨0, 5, 6⟩] [0] [])) = some .pcOutOfRange := by decide
theorem test_fault_pc_negative :                                                                -- F7
    faultOf (step (small ["beq $0, $0, -2"] [⟨0, -2, -1⟩] [0] [])) = some .pcOutOfRange := by decide
theorem test_final_at_launch : faultOf (step (small [] [] [0] [])) = some .endOfRun := by decide -- F16

/-! ## The host's table words -/

theorem test_table_word_or : decodeTableWord 8 6 = some (.or 0 0 0) := by decide
theorem test_table_word_unassigned : decodeTableWord 8 7 = none := by decide
theorem test_table_word_runs : pcAfter (step (State.reset.withFetchWord 8 3)) = some 1 := by decide

/-! ## A concrete instance of the hypotheses of every statement that has some -/

/-- Four registers, three cells, and a program with one line of every kind of effect. -/
def demo : State :=
  small ["add $3, $1, $2", "lw $2, 4($1)", "sw $3, -8($1)", "beq $0, $0, -4"] [⟨3, -4, 0⟩] [0, 100, 10, 7]
    [(-1, 3), (92, 5), (104, 21)]

/-- The same machine at another line. -/
def demoAt (n : Nat) : State := { demo with pc := n }

theorem demo_inv : demo.Inv := ⟨by decide, by decide, fun _ => inRange_zero _, by decide, by decide, by decide⟩

theorem demo_line (n : Nat) (line : Line) (rs rt : Nat) (imm : Int) (hl : demo.prog[n]? = some line)
    (hd : decode line = .ok (.beq rs rt imm)) : n = 3 ∧ rs = 0 ∧ rt = 0 ∧ imm = -4 := by
  have hn : n < 4 := (List.getElem?_eq_some_iff.1 hl).1
  have h : ∀ m, m < 4 → ∀ l, demo.prog[m]? = some l → m ≠ 3 → (match decode l with
      | .ok (.beq _ _ _) => false
      | _ => true) = true := by
    intro m hm l hl'
    have : m = 0 ∨ m = 1 ∨ m = 2 ∨ m = 3 := by omega
    rcases this with rfl | rfl | rfl | rfl <;> cases hl' <;> decide
  by_cases h3 : n = 3
  · subst h3
    cases hl
    have h' : decode "beq $0, $0, -4".toList = .ok (.beq 0 0 (-4)) := by decide
    rw [h'] at hd
    cases hd
    exact ⟨rfl, rfl, rfl, rfl⟩
  · have := h n hn line hl h3
    rw [hd] at this
    cases this

theorem witness_OperandExtractionFollowsFormat_m :
    tokenize "lw $2, 4($3)".toList = [Opcode.lw.name, "$2".toList, "4".toList, "$3".toList] ∧ Opcode.lw.format = .m ∧
    regToken "$2".toList = .ok 2 ∧ immToken "4".toList = .ok 4 ∧ regToken "$3".toList = .ok 3 := by decide
theorem witness_OperandExtractionFollowsFormat_r :
    tokenize "or $0, $1, $2".toList = [Opcode.or.name, "$0".toList, "$1".toList, "$2".toList] ∧ Opcode.or.format = .r ∧
    regToken "$0".toList = .ok 0 ∧ regToken "$1".toList = .ok 1 ∧ regToken "$2".toList = .ok 2 := by decide
theorem witness_OperandExtractionFollowsFormat_b :
    tokenize "beq $1, $2, -1".toList = [Opcode.beq.name, "$1".toList, "$2".toList, "-1".toList] ∧
    Opcode.beq.format = .b ∧ regToken "$1".toList = .ok 1 ∧ regToken "$2".toList = .ok 2 ∧
    immToken "-1".toList = .ok (-1) := by decide
theorem witness_TokensAreMaximalRuns :
    (∀ c ∈ ['$', '2'], isWhitespace c = false ∧ isPunctuation c = false) ∧ ['$', '2'] ≠ [] ∧
    isWhitespace '\t' = true ∧ isPunctuation ')' = true :=
  ⟨List.forall_mem_cons.2 ⟨by decide, List.forall_mem_cons.2 ⟨by decide, by simp⟩⟩, by decide, by decide, by decide⟩
theorem witness_ParseIgnoresPunctuation : isPunctuation ',' = true ∧ isWhitespace '\n' = true := by decide
theorem witness_DiagnosisAgreesWithParse :
    malformedReason "add".toList = some .tokenCount ∧ tokenize "add".toList = [Opcode.add.name] := by decide
theorem witness_ParseReportsTheFirstDefect_empty : tokenize ",".toList = [] := by decide
theorem witness_ParseReportsTheFirstDefect_opcode :
    tokenize "xor".toList = ["xor".toList] ∧ ∀ op ∈ Opcode.all, op.name ≠ "xor".toList := by decide
theorem witness_ParseReportsTheFirstDefect_count :
    tokenize "add $1 $2 $3 $4".toList =
      Opcode.add.name :: ["$1".toList, "$2".toList, "$3".toList, "$4".toList] := by decide
theorem witness_ParseReportsTheFirstDefect_operand :
    tokenize "add $ $2 $3".toList = Opcode.add.name :: ["$".toList, "$2".toList, "$3".toList] ∧
    parse "add $ $2 $3".toList = .error .malformedInstruction := by decide
theorem witness_ParsedOperandCounts_three : parse "or $6, $3, $4".toList = .ok ⟨.or, [3, 4, 6], 0⟩ := by decide
theorem witness_ParsedOperandCounts_two : parse "beq $1, $2, 16".toList = .ok ⟨.beq, [1, 2], 16⟩ := by decide
theorem witness_ThreeComponentsInLockStep : tokenize "lw $2".toList = ["lw".toList, "$2".toList] := by decide
theorem witness_ControlTableInvariants :
    (ctl .sw).regWrite = .zero ∧ (ctl .beq).regDst = .dontCare ∧ (ctl .lw).memtoReg = .one := by decide
theorem witness_CircuitOutputsAreTheRefinements :
    refines ⟨true, true, false, false, true, false, false⟩ (ctl .sw) = true := by decide
theorem witness_DontCareIsNeverConsulted :
    refines ⟨false, true, false, false, true, false, true⟩ (ctl (Instr.sw 3 (-8) 1).opcode) = true := by decide
theorem witness_ParsedTextDrivesAssignedCodes :
    parse "and $5, $3, $4".toList = .ok ⟨.and, [3, 4, 5], 0⟩ := by decide
theorem witness_AluAppliesTheEvaluator :
    Opcode.add ∈ [Opcode.add, .sub, .beq, .and, .or] ∧ Opcode.or ∈ [Opcode.add, .sub, .beq, .and, .or] ∧
    Opcode.add ≠ .or := by decide
theorem witness_AluPortsCarryTheResult : Opcode.or ≠ .beq := by decide
theorem witness_FixedWidthAgreesWithUnbounded :
    (Width.bits 1).wellFormed = true ∧ (Width.bits 8).inRange (-128) = true ∧ (Width.bits 8).inRange 127 = true ∧
    alu .unbounded .add (-128) 255 = .num 127 ∧ 5 ≤ 5 := by decide
theorem witness_FiniteWidthResultsAreBitVectors : (1 : Nat) ≤ 1 := by decide
theorem witness_EvaluatorAlgebra :
    (Width.bits 32).wellFormed = true ∧ (Width.bits 32).inRange 2147483647 = true ∧
    (Width.bits 32).inRange (-2147483648) = true := by decide
theorem witness_RegisterOperands :
    (0 : Nat) < demo.nregs ∧ 3 < demo.nregs ∧ (Width.bits 32).inRange (-2147483648) = true := by decide
theorem witness_AddInstruction :
    3 < demo.nregs ∧ 1 < demo.nregs ∧ 2 < demo.nregs ∧ regAfter (exec (.add 3 1 2) demo) 3 = some 110 := by decide
theorem witness_SubInstruction :
    3 < demo.nregs ∧ 1 < demo.nregs ∧ 2 < demo.nregs ∧ regAfter (exec (.sub 3 1 2) demo) 3 = some 90 := by decide
theorem witness_AndInstruction :
    3 < demo.nregs ∧ 1 < demo.nregs ∧ 2 < demo.nregs ∧ regAfter (exec (.and 3 1 2) demo) 3 = some 0 := by decide
theorem witness_OrInstruction :
    3 < demo.nregs ∧ 1 < demo.nregs ∧ 2 < demo.nregs ∧ regAfter (exec (.or 3 1 2) demo) 3 = some 110 := by decide
theorem witness_LoadInstruction :
    2 < demo.nregs ∧ 1 < demo.nregs ∧ demo.immWidth.inRange 4 = true ∧
    regAfter (exec (.lw 2 4 1) demo) 2 = some 21 := by decide
theorem witness_StoreInstruction :
    3 < demo.nregs ∧ 1 < demo.nregs ∧ demo.immWidth.inRange (-8) = true ∧
    memAfter (exec (.sw 3 (-8) 1) demo) 92 = some 7 := by decide
theorem witness_BranchInstruction_not_taken :
    0 < demo.nregs ∧ 1 < demo.nregs ∧ demo.immWidth.inRange 32767 = true ∧ demo.readReg 0 ≠ demo.readReg 1 := by decide
theorem witness_BranchInstruction_taken :
    0 < (demoAt 3).nregs ∧ (demoAt 3).immWidth.inRange (-4) = true ∧ (demoAt 3).readReg 0 = (demoAt 3).readReg 0 ∧
    0 ≤ (demoAt 3).branchTarget 3 (-4) ∧ (demoAt 3).branchTarget 3 (-4) ≤ (demoAt 3).prog.length := by decide
theorem witness_BranchInstruction_subtractor :
    (1 : Nat) ≤ 8 ∧ (Width.bits 8).inRange (-128) = true ∧ (Width.bits 8).inRange 127 = true := by decide
theorem witness_RegisterInstructionsFrame : ∃ t, exec (.add 3 1 2) demo = .next t := ⟨_, rfl⟩
theorem witness_LoadFrame : ∃ t, exec (.lw 2 4 1) demo = .next t := ⟨_, rfl⟩
theorem witness_StoreFrame : ∃ t, exec (.sw 3 (-8) 1) demo = .next t := ⟨_, rfl⟩
theorem witness_BranchFrame : ∃ t, exec (.beq 0 0 (-4)) (demoAt 3) = .next t := ⟨_, rfl⟩
theorem witness_RegisterIndexIsChecked : 4 ∈ (Instr.lw 4 99999 0).ops ∧ demo.nregs ≤ 4 := by decide
theorem witness_ImmediateIsConvertedOrRefused_edges :
    immVal (.bits 16) 32767 = .ok 32767 ∧ immVal (.bits 16) (-32768) = .ok (-32768) ∧
    immVal (.bits 16) 32768 = .error .immediateOutOfRange ∧
    immVal (.bits 16) (-32769) = .error .immediateOutOfRange := by decide
theorem witness_ImmediateIsConvertedOrRefused :
    (∀ r ∈ (Instr.beq 1 0 40000).ops, r < demo.nregs) ∧
    immVal demo.immWidth (Instr.beq 1 0 40000).imm = .error .immediateOutOfRange := by decide
theorem witness_PcAdvances_next : ∃ t, exec (.beq 0 1 0) demo = .next t := ⟨_, rfl⟩
theorem witness_PcAdvances_stop :
    (small ["beq $0, $0, 5"] [⟨0, 5, 2⟩] [0] []).branchTarget 0 5 = 2 ∧
    (small ["beq $0, $0, 5"] [⟨0, 5, 2⟩] [0] []).prog.length = 1 := by decide
theorem witness_PcAdvances_negative : (small ["beq $0, $0, 5"] [⟨0, 5, -1⟩] [0] []).branchTarget 0 5 < 0 := by decide
theorem witness_PcAdvances_end :
    (small ["beq $0, $0, 5"] [⟨0, 5, 1⟩] [0] []).branchTarget 0 5 =
      (small ["beq $0, $0, 5"] [⟨0, 5, 1⟩] [0] []).prog.length := by decide
theorem witness_OnlyBeqRedirectsControl : pcAfter (exec (.beq 0 0 (-4)) (demoAt 3)) = some 0 := by decide
theorem witness_AcceptedInstructionsComplete_lw :
    (Instr.lw 2 4 1).wellFormed demo.nregs demo.immWidth = true ∧ (Instr.lw 2 4 1).opcode ≠ .beq := by decide
theorem witness_AcceptedInstructionsComplete_beq :
    (Instr.beq 0 0 (-4)).wellFormed (demoAt 3).nregs (demoAt 3).immWidth = true ∧
    0 ≤ (demoAt 3).branchTarget (demoAt 3).pc (Instr.beq 0 0 (-4)).imm ∧
    (demoAt 3).branchTarget (demoAt 3).pc (Instr.beq 0 0 (-4)).imm ≤ (demoAt 3).prog.length := by decide
theorem witness_StepRunsTheDecodedInstruction :
    demo.prog[demo.pc]? = some "add $3, $1, $2".toList ∧ decode "add $3, $1, $2".toList = .ok (.add 3 1 2) := by decide
theorem witness_StepStopsExactlyWhereTheRulesSay : (demoAt 4).pc ≤ (demoAt 4).prog.length ∧ (demoAt 4).isFinal :=
  ⟨by decide, rfl⟩
theorem witness_ProgramNeverChanges : ∃ t, Reaches demo t ∧ t.readReg 3 = 110 :=
  ⟨_, .tail (.refl demo) rfl, rfl⟩
theorem witness_StepKeepsInvariant : demo.Inv ∧ ∃ t, step demo = .next t := ⟨demo_inv, _, rfl⟩
theorem witness_LaunchStatesHaveTheInvariant :
    parametersWellFormed (.bits 32) (.bits 16) demo.regs.length = true ∧
    (∀ v ∈ demo.regs, (Width.bits 32).inRange v = true) ∧ (Width.bits 32).inRange 0 = true ∧
    Memory.wf (Memory.unlisted (.bits 32) (.constant 0)) demo.mem = true ∧
    (∀ c ∈ demo.mem, (Width.bits 32).inRange c.1 = true ∧ (Width.bits 32).inRange c.2 = true) := by decide
theorem witness_ReachableStatesHaveTheInvariant : demo.Inv ∧ ∃ t, Reaches demo t ∧ t.pc = 1 :=
  ⟨demo_inv, _, .tail (.refl demo) rfl, rfl⟩
theorem witness_BranchToItselfLoops :
    (small ["beq $0, $0, -1"] [⟨0, -1, 0⟩] [0] []).prog[0]? = some "beq $0, $0, -1".toList ∧
    decode "beq $0, $0, -1".toList = .ok (.beq 0 0 (-1)) ∧
    (small ["beq $0, $0, -1"] [⟨0, -1, 0⟩] [0] []).branchTarget 0 (-1) = 0 := by decide
theorem witness_ProgramsWithinTheLimitsRunSafely :
    demo.Inv ∧ (∀ line ∈ demo.prog, ∃ i, decode line = .ok i ∧ i.wellFormed demo.nregs demo.immWidth = true) ∧
    (∀ (n : Nat) (line : Line) (rs rt : Nat) (imm : Int), demo.prog[n]? = some line →
      decode line = .ok (.beq rs rt imm) → 0 ≤ demo.branchTarget n imm ∧ demo.branchTarget n imm ≤ demo.prog.length) := by
  refine ⟨demo_inv, fun line hl => ?_, fun n line rs rt imm hl hd => ?_⟩
  · have : line = "add $3, $1, $2".toList ∨ line = "lw $2, 4($1)".toList ∨ line = "sw $3, -8($1)".toList ∨
        line = "beq $0, $0, -4".toList := by simpa [demo, small, State.launch] using hl
    rcases this with rfl | rfl | rfl | rfl
    · exact ⟨.add 3 1 2, by decide, by decide⟩
    · exact ⟨.lw 2 4 1, by decide, by decide⟩
    · exact ⟨.sw 3 (-8) 1, by decide, by decide⟩
    · exact ⟨.beq 0 0 (-4), by decide, by decide⟩
  · obtain ⟨rfl, rfl, rfl, rfl⟩ := demo_line n line rs rt imm hl hd
    decide
theorem witness_MemoryIsAMapOfWholeValues : Memory.wf demo.unlisted demo.mem = true ∧ (93 : Val) ≠ 92 := by decide
theorem witness_CanonicalMemoriesAreExtensional :
    Memory.wf demo.unlisted (Memory.write demo.unlisted demo.mem 92 0) = true ∧ Memory.wf demo.unlisted [(-1, 3), (104, 21)] = true ∧
    Memory.write demo.unlisted demo.mem 92 0 = [(-1, 3), (104, 21)] := by decide
theorem witness_LaunchMemoryIsTotal_listed :
    Memory.wf (Memory.unlisted (.bits 32) (.constant 7)) [(-1, 3), (104, 21)] = true ∧
    ((-1, 3) : Val × Val) ∈ [((-1, 3) : Val × Val), (104, 21)] := by decide
theorem witness_LaunchMemoryIsTotal_unlisted : ∀ c ∈ demo.mem, c.1 ≠ -2 := by decide
theorem witness_LaunchMemoryIsTotal_supplied :
    ∃ M0 : Val → Val, (∀ j, Config.launchMemory 3 j = M0 j) ∧ Width.unbounded.wellFormed = true ∧
      Width.unbounded.inRange (M0 (-2)) = true := ⟨Config.launchMemory 3, fun _ => rfl, rfl, rfl⟩
theorem witness_OnlySwChangesMemory :
    Memory.wf demo.unlisted demo.mem = true ∧ ∃ t, step (demoAt 2) = .next t ∧
      t.memRead 92 ≠ (demoAt 2).memRead 92 := ⟨by decide, _, rfl, by decide⟩
theorem witness_NoRegisterIsHardwired : 0 < demo.nregs ∧ (demo.writeReg 0 5).readReg 0 = 5 := by decide
theorem witness_LoadAfterStoreReadsTheValue :
    Memory.wf demo.unlisted demo.mem = true ∧ 0 < demo.nregs ∧ ∃ t, exec (.sw 3 (-8) 1) demo = .next t :=
  ⟨by decide, by decide, _, rfl⟩
theorem witness_TableWordsRunTheirInstruction : (7 : Nat) ≤ 7 ∧ 7 < 256 := by decide

end Sys2Proof.Tests
end

section
/-! PROOFS. The lock-step of the three components (R3, 00_scope.md): what each does on an opcode of the closed set and
on anything else. -/

namespace Sys2Proof

/-! ## The first token -/

/-- A token that is no opcode's name is unknown (R48). -/
theorem opcodeToken_of_not_name {t : Line} (h : ∀ op : Opcode, op.name ≠ t) :
    opcodeToken t = .error .unknownOpcode := by
  unfold opcodeToken
  split
  · next op hop =>
    have hname := List.find?_some hop
    exact absurd (beq_iff_eq.1 hname) (h op)
  · rfl

/-- With an unknown first token the decoder looks no further (R50). -/
theorem decodeTokens_of_not_name {t0 : Line} (rest : List Line) (h : ∀ op : Opcode, op.name ≠ t0) :
    decodeTokens (t0 :: rest) = .error .unknownOpcode := by
  simp only [decodeTokens, opcodeToken_of_not_name h]

/-- After a known opcode the decoder fails in one way only (R55, R56). -/
theorem decodeTokens_name_error {op : Opcode} {rest : List Line} {e : BlockError}
    (h : decodeTokens (op.name :: rest) = .error e) : e = .malformedInstruction := by
  simp only [decodeTokens, opcodeToken_name] at h
  split at h
  · exact decodeOperands_error h
  · cases h; rfl

/-- `Parse` fails exactly where the decoder does, with the same error. -/
theorem parse_eq_error_iff {line : Line} {e : BlockError} :
    parse line = .error e ↔ decodeTokens (tokenize line) = .error e := by
  unfold parse decode
  cases decodeTokens (tokenize line) <;> simp [Except.map]

/-- `UnknownOpcode` is reported exactly on a first token that is none of the seven. -/
theorem parse_eq_unknownOpcode_iff {line t0 : Line} {rest : List Line} (ht : tokenize line = t0 :: rest) :
    parse line = .error .unknownOpcode ↔ ∀ op : Opcode, op.name ≠ t0 := by
  rw [parse_eq_error_iff, ht]
  refine ⟨?_, decodeTokens_of_not_name rest⟩
  rintro h op rfl
  cases decodeTokens_name_error h

/-! ## A line of each opcode -/

/-- The instruction with zero operands keeps its opcode. -/
@[simp] theorem opcode_zeroOperands (op : Opcode) : op.zeroOperands.opcode = op := by
  cases op <;> rfl

/-- The canonical line of each opcode with zero operands parses: one closed evaluation per opcode. -/
theorem parse_encode_zeroOperands (op : Opcode) : parse (encode op.zeroOperands) = .ok op.zeroOperands.decoded := by
  cases op <;> decide

/-! ## The codes -/

/-- A code that reads as an opcode is that opcode's own: one look at the eight codes per opcode (R60). -/
theorem opsel_of_opcodeOfSelect (op : Opcode) : ∀ code : BitVec 3, opcodeOfSelect code = .ok op → op.opsel = code := by
  cases op <;> decide

/-- The code lookup inverts `OPSEL` (R60). -/
theorem opcodeOfSelect_eq_ok_iff {code : BitVec 3} {op : Opcode} : opcodeOfSelect code = .ok op ↔ op.opsel = code :=
  ⟨opsel_of_opcodeOfSelect op code, by rintro rfl; exact opcodeOfSelect_opsel op⟩

/-- A unit that looks its code up first is defined exactly on the codes of the seven opcodes (R60, R141). -/
theorem map_opcodeOfSelect_ok_iff {α : Type} (f : Opcode → α) (code : BitVec 3) :
    (∃ v, (opcodeOfSelect code).map f = .ok v) ↔ ∃ op : Opcode, op.opsel = code := by
  simp only [← opcodeOfSelect_eq_ok_iff]
  cases opcodeOfSelect code <;> simp [Except.map]

end Sys2Proof

open Sys2Proof Sys2Proof.Machine

/-- Settles O9: `Parse` by its check of the first token, `Ctl` and `Alu` by the code lookup that both start with. -/
theorem threeComponentsInLockStep : Obligations.ThreeComponentsInLockStep := by
  unfold Obligations.ThreeComponentsInLockStep
  refine ⟨fun op => ⟨encode op.zeroOperands, _, parse_encode_zeroOperands op, opcode_zeroOperands op⟩, ?_,
    map_opcodeOfSelect_ok_iff ctl, fun w code a b => map_opcodeOfSelect_ok_iff (fun op => alu w op a b) code⟩
  intro line t0 rest ht
  rw [ne_eq, parse_eq_unknownOpcode_iff ht, not_forall_not]

end

section
/-! PROOFS. What crosses the block's interfaces and what a register holds (10_state.md): the shape of a Decoded
Instruction, the output wires of `Alu`, the register file. -/

namespace Sys2Proof

/-! ## The shape of a Decoded Instruction -/

/-- The operand roles of 30_encoding.md section 1, gathered over the seven instructions. -/
theorem Instr.operandRoles : ∀ i : Instr, Laws.OperandRoles.Statement i
  | .add rd rs rt => Laws.OperandRoles.add rd rs rt
  | .sub rd rs rt => Laws.OperandRoles.sub rd rs rt
  | .lw rt imm rs => Laws.OperandRoles.lw rt imm rs
  | .sw rt imm rs => Laws.OperandRoles.sw rt imm rs
  | .beq rs rt imm => Laws.OperandRoles.beq rs rt imm
  | .and rd rs rt => Laws.OperandRoles.and rd rs rt
  | .or rd rs rt => Laws.OperandRoles.or rd rs rt

/-- What `Parse` returns is the Decoded Instruction of the instruction that the line spells. -/
theorem parse_eq_ok_iff {line : Line} {d : DecodedInstruction} :
    parse line = .ok d ↔ ∃ i, decode line = .ok i ∧ i.decoded = d := by
  unfold parse
  cases decode line <;> simp [Except.map]

/-- `Parse` returns only Decoded Instructions of the shape that R17 and R18 give. -/
theorem parse_wellFormed {line : Line} {d : DecodedInstruction} (h : parse line = .ok d) : d.wellFormed = true := by
  obtain ⟨i, -, rfl⟩ := parse_eq_ok_iff.1 h
  obtain ⟨-, -, -, hwf⟩ := i.operandRoles
  exact hwf

/-- The shape in words: the operand count of the format, and the immediate 0 in format R (R17, R18). -/
theorem DecodedInstruction.wellFormed_iff (d : DecodedInstruction) :
    d.wellFormed = true ↔ d.ops.length = d.op.format.operandCount ∧ (d.op.format = .r → d.imm = 0) := by
  simp [DecodedInstruction.wellFormed, ← imp_iff_not_or]

/-- Format R is that of exactly the four register opcodes (R42). -/
theorem Opcode.format_eq_r_iff (op : Opcode) : op.format = .r ↔ op = .add ∨ op = .sub ∨ op = .and ∨ op = .or := by
  cases op <;> decide

/-- Exactly the other three opcodes have two operands (R41, R43). -/
theorem Opcode.operandCount_eq_two_iff (op : Opcode) :
    op.format.operandCount = 2 ↔ op = .lw ∨ op = .sw ∨ op = .beq := by
  cases op <;> decide

end Sys2Proof

namespace Sys2Proof.Machine

/-! ## The output wires of `Alu` -/

/-- At the code of an opcode the port applies the opcode's evaluator (R21, R60). -/
@[simp] theorem aluPort_opsel (w : Width) (op : Opcode) (a b : Val) :
    aluPort w op.opsel a b = .ok (alu w op a b) := by
  simp [aluPort, Except.map]

/-- On the unassigned code the port has no result (R141). -/
@[simp] theorem aluPort_unassigned (w : Width) (a b : Val) : aluPort w 7#3 a b = .error .unknownOpcode := rfl

/-- A number drives `result` and leaves `eq` without meaning (R21). -/
theorem aluCircuit_of_num {free : AluPorts} {w : Width} {code : BitVec 3} {a b v : Val}
    (h : aluPort w code a b = .ok (.num v)) :
    aluCircuit free w code a b = { result := v, eq := free.eq, unknown := false } := by
  simp only [aluCircuit, h]

/-- A boolean drives `eq` and leaves `result` without meaning (R21). -/
theorem aluCircuit_of_bool {free : AluPorts} {w : Width} {code : BitVec 3} {a b : Val} {t : Bool}
    (h : aluPort w code a b = .ok (.bool t)) :
    aluCircuit free w code a b = { result := free.result, eq := t, unknown := false } := by
  simp only [aluCircuit, h]

/-- An error drives `unknown` and leaves the other two wires without meaning (R21, R141). -/
theorem aluCircuit_of_error {free : AluPorts} {w : Width} {code : BitVec 3} {a b : Val} {e : BlockError}
    (h : aluPort w code a b = .error e) :
    aluCircuit free w code a b = { result := free.result, eq := free.eq, unknown := true } := by
  simp only [aluCircuit, h]

/-- Every evaluator but that of `beq` gives a number (R100). -/
theorem alu_eq_num_of_ne_beq (w : Width) {op : Opcode} (a b : Val) (h : op ≠ .beq) : ∃ v, alu w op a b = .num v := by
  cases op with
  | beq => exact absurd rfl h
  | add | sub | lw | sw | and | or => exact ⟨_, rfl⟩

/-- The evaluator of `beq` gives the boolean of the comparison (R116). -/
theorem alu_beq (w : Width) (a b : Val) : alu w .beq a b = .bool (valuesEqual a b) := rfl

/-! ## The register file -/

/-- A register of the caller keeps what is written to it, register 0 too (R123). -/
theorem State.readReg_writeReg_self {s : State} {d : Nat} (v : Val) (hd : d < s.nregs) :
    (s.writeReg d v).readReg d = v := by
  rw [State.readReg_set, if_pos ⟨rfl, hd⟩]

/-- A write to one register leaves every other as it was (R123). -/
theorem State.readReg_writeReg_other (s : State) {d r : Nat} (v : Val) (h : r ≠ d) :
    (s.writeReg d v).readReg r = s.readReg r := by
  rw [State.readReg_set, if_neg fun hd => h hd.1.symm]

end Sys2Proof.Machine

open Sys2Proof Sys2Proof.Machine

/-- Settles O8: the shape that every parsed instruction has, read for each opcode. -/
theorem parsedOperandCounts : Obligations.ParsedOperandCounts := by
  unfold Obligations.ParsedOperandCounts
  intro line d h
  obtain ⟨hlen, himm⟩ := d.wellFormed_iff.1 (parse_wellFormed h)
  rw [← d.op.format_eq_r_iff, ← d.op.operandCount_eq_two_iff]
  exact ⟨fun hr => ⟨by rw [hlen, hr, Format.operandCount], himm hr⟩, fun h2 => hlen.trans h2⟩

/-- Settles O19: the kind of result that each code gives, and the wire that carries it. -/
theorem aluPortsCarryTheResult : Obligations.AluPortsCarryTheResult := by
  unfold Obligations.AluPortsCarryTheResult
  intro free w a b
  refine ⟨fun op hop => ?_, ⟨valuesEqual a b, alu_beq w a b, ?_⟩, ?_⟩
  · obtain ⟨v, hv⟩ := alu_eq_num_of_ne_beq w a b hop
    have hport : aluPort w op.opsel a b = .ok (.num v) := by rw [aluPort_opsel, hv]
    exact ⟨v, hv, by simp [aluCircuit_of_num hport]⟩
  · have hport : aluPort w Opcode.beq.opsel a b = .ok (.bool (valuesEqual a b)) := by rw [aluPort_opsel, alu_beq]
    simp [aluCircuit_of_bool hport]
  · rw [aluCircuit_of_error (aluPort_unassigned w a b)]

/-- Settles O50: what a register reads after a write to it and after a write to another. -/
theorem noRegisterIsHardwired : Obligations.NoRegisterIsHardwired := by
  unfold Obligations.NoRegisterIsHardwired
  exact fun s _ v hd => ⟨State.readReg_writeReg_self v hd, fun _ hr => State.readReg_writeReg_other s v hr⟩

end

section
/-! PROOFS. Data memory as the instructions see it (20_memory.md): `sw` alone changes it, and `lw` reads back what `sw`
wrote. -/

namespace Sys2Proof.Machine

/-! ## Reads after a write -/

/-- A canonical memory of the caller reads the value just written (R126). -/
theorem State.memRead_memWrite_self {s : State} (hwf : Memory.wf s.unlisted s.mem = true) (k v : Val) :
    (s.memWrite k v).memRead k = v :=
  Memory.read_write_self hwf k v

/-- A write leaves what the caller reads at every other key (R126). -/
theorem State.memRead_memWrite_other (s : State) {k k' : Val} (v : Val) (h : k' ≠ k) :
    (s.memWrite k v).memRead k' = s.memRead k' :=
  Memory.read_write_other s.mem v h

/-- The key that is accessed does not depend on memory. -/
@[simp] theorem accessKey_memWrite (s : State) (k v : Val) (imm : Int) (rs : Nat) :
    accessKey (s.memWrite k v) imm rs = accessKey s imm rs := rfl

/-- The key that is accessed does not depend on the pc. -/
@[simp] theorem accessKey_advance (s : State) (imm : Int) (rs : Nat) :
    accessKey s.advance imm rs = accessKey s imm rs := rfl

/-- Going on to the next line keeps the number of registers. -/
@[simp] theorem State.nregs_advance (s : State) : s.advance.nregs = s.nregs := rfl

/-! ## The checks and the stages of an instruction that goes on -/

/-- The fetched instruction is what the line at the pc spells (R129). -/
theorem State.fetch_eq_ok {s : State} {i : Instr} (h : s.fetch = .ok i) :
    ∃ line, s.prog[s.pc]? = some line ∧ decode line = .ok i := by
  rcases s.fetch_cases with ⟨-, hf⟩ | ⟨_, _, -, -, hf⟩ | ⟨line, j, hline, hdec, hf⟩ <;> rw [hf] at h
  · cases h
  · cases h
  · cases h; exact ⟨line, hline, hdec⟩

/-- Outside format R the immediate phase gives the immediate itself, where it is in range (R125). -/
theorem takeImmediate_eq_ok_iff {i : Instr} {s : State} {iv : Val} (hf : i.opcode.format ≠ .r) :
    takeImmediate i s = .ok iv ↔ s.immWidth.inRange i.imm = true ∧ i.imm = iv := by
  rcases takeImmediate_cases i s with ⟨hr, -⟩ | ⟨-, hi, ht⟩ | ⟨-, hi, ht⟩
  · exact absurd hr hf
  · simp [ht, hi]
  · simp [ht, hi]

/-- An instruction with an immediate that goes on has passed the checks of its indices and of its immediate
(R125, R127). -/
theorem checks_of_exec_next {i : Instr} {s t : State} (hf : i.opcode.format ≠ .r) (h : exec i s = .next t) :
    indicesInRange i s = true ∧ s.immWidth.inRange i.imm = true := by
  rw [exec_eq_runInstr] at h
  obtain ⟨hr, iv, hi⟩ := datapath_next h
  exact ⟨hr, ((takeImmediate_eq_ok_iff hf).1 hi).1⟩

/-- What `sw` does past its checks: one memory write and the next pc (R134). -/
theorem exec_sw_eq_next {rt rs : Nat} {imm : Int} {s : State} (hr : indicesInRange (.sw rt imm rs) s = true)
    (hi : s.immWidth.inRange imm = true) :
    exec (.sw rt imm rs) s = .next (s.memWrite (accessKey s imm rs) (s.readReg rt)).advance := by
  have himm : takeImmediate (.sw rt imm rs) s = .ok imm :=
    (takeImmediate_eq_ok_iff (i := .sw rt imm rs) nofun).2 ⟨hi, rfl⟩
  rw [exec_eq_runInstr, runInstr, datapath_eq hr himm]
  rfl

/-- What `lw` does past its checks: one register write and the next pc (R134). -/
theorem exec_lw_eq_next {rt rs : Nat} {imm : Int} {s : State} (hr : indicesInRange (.lw rt imm rs) s = true)
    (hi : s.immWidth.inRange imm = true) :
    exec (.lw rt imm rs) s = .next (s.writeReg rt (s.memRead (accessKey s imm rs))).advance := by
  have himm : takeImmediate (.lw rt imm rs) s = .ok imm :=
    (takeImmediate_eq_ok_iff (i := .lw rt imm rs) nofun).2 ⟨hi, rfl⟩
  rw [exec_eq_runInstr, runInstr, datapath_eq hr himm]
  rfl

/-- A `sw` that goes on has passed its checks and ends in the state after its write (R125, R127, R134). -/
theorem exec_sw_next {rt rs : Nat} {imm : Int} {s t : State} (h : exec (.sw rt imm rs) s = .next t) :
    indicesInRange (.sw rt imm rs) s = true ∧ s.immWidth.inRange imm = true ∧
      t = (s.memWrite (accessKey s imm rs) (s.readReg rt)).advance := by
  obtain ⟨hr, hi⟩ := checks_of_exec_next (i := .sw rt imm rs) nofun h
  rw [exec_sw_eq_next hr hi] at h
  cases h
  exact ⟨hr, hi, rfl⟩

/-! ## Which instructions change memory -/

/-- `MemWrite` is 1 in the row of `sw` only (R83). -/
theorem ctl_memWrite_eq_one_iff (op : Opcode) : (ctl op).memWrite = .one ↔ op = .sw := by
  cases op <;> decide

/-- Without `MemWrite` the store phase does nothing (R77). -/
theorem storeStage_of_memWrite_ne_one {cv : ControlVector} (r : AluResult) (st : Val) (s : State)
    (h : cv.memWrite ≠ .one) : storeStage cv r st s = s :=
  if_neg h

/-- The register write leaves memory alone. -/
@[simp] theorem memRead_writeBackStage (cv : ControlVector) (d : Option Nat) (w : Option Val) (s : State) (k : Val) :
    (writeBackStage cv d w s).memRead k = s.memRead k := by
  rcases writeBackStage_cases cv d w s with h | ⟨r, v, -, -, h⟩ <;> rw [h]
  exact s.memRead_writeReg r v k

/-- The last phase leaves memory alone. -/
theorem memRead_of_pcStage_next {cv : ControlVector} {r : AluResult} {iv : Val} {s t : State}
    (h : pcStage cv r iv s = .next t) (k : Val) : t.memRead k = s.memRead k := by
  rcases pcStage_next h with ⟨-, rfl⟩ | ⟨-, -, -, rfl⟩
  · exact s.memRead_advance k
  · rfl

/-- Every instruction but `sw` leaves memory alone (R134). -/
theorem memRead_of_exec_next {i : Instr} {s t : State} (h : exec i s = .next t) (hop : i.opcode ≠ .sw) (k : Val) :
    t.memRead k = s.memRead k := by
  rw [exec_eq_runInstr] at h
  obtain ⟨hr, iv, hi⟩ := datapath_next h
  rw [runInstr, datapath_eq hr hi] at h
  rw [memRead_of_pcStage_next h, memRead_writeBackStage,
    storeStage_of_memWrite_ne_one _ _ _ (mt (ctl_memWrite_eq_one_iff _).1 hop)]

/-- An instruction that changes the value at some key is a `sw` (R134). -/
theorem eq_sw_of_exec_memRead_ne {i : Instr} {s t : State} {k : Val} (h : exec i s = .next t)
    (hk : t.memRead k ≠ s.memRead k) : ∃ rt imm rs, i = .sw rt imm rs := by
  have hop : i.opcode = .sw := by_contra fun hop => hk (memRead_of_exec_next h hop k)
  cases i with
  | sw rt imm rs => exact ⟨rt, imm, rs, rfl⟩
  | add | sub | lw | beq | and | or => cases hop

end Sys2Proof.Machine

open Sys2Proof Sys2Proof.Machine

/-- Settles O51: the state after the `sw` passes the checks of the `lw`, whose key is the one just written. -/
theorem loadAfterStoreReadsTheValue : Obligations.LoadAfterStoreReadsTheValue := by
  unfold Obligations.LoadAfterStoreReadsTheValue
  intro rt rs rd imm s t hwf hrd hsw
  obtain ⟨hr, hi, ht⟩ := exec_sw_next hsw
  have hrs : rs < s.nregs := (indicesInRange_iff _ s).1 hr rs List.mem_cons_self
  have hregs : indicesInRange (.lw rd imm rs) t = true := by
    simp [indicesInRange_iff, Instr.ops, ht, hrs, hrd]
  have himm : t.immWidth.inRange imm = true := by simpa [ht] using hi
  have hkey : t.memRead (accessKey t imm rs) = s.readReg rt := by
    simp [ht, State.memRead_memWrite_self hwf]
  refine ⟨_, exec_lw_eq_next hregs himm, ?_⟩
  rw [State.readReg_advance, State.readReg_writeReg_self _ (by simpa [ht] using hrd), hkey]

/-- Settles O54: only a `sw` changes memory at all, and its one write leaves every key but its own. -/
theorem onlySwChangesMemory : Obligations.OnlySwChangesMemory := by
  unfold Obligations.OnlySwChangesMemory
  intro s t k hwf hstep hk
  obtain ⟨i, hfetch, hexec⟩ := step_next hstep
  obtain ⟨line, hline, hdec⟩ := State.fetch_eq_ok hfetch
  obtain ⟨rt, imm, rs, rfl⟩ := eq_sw_of_exec_memRead_ne hexec hk
  obtain ⟨-, -, rfl⟩ := exec_sw_next hexec
  rw [State.memRead_advance] at hk ⊢
  have hkey : k = accessKey s imm rs := by_contra fun hne => hk (s.memRead_memWrite_other _ hne)
  subst hkey
  exact ⟨line, rt, rs, imm, hline, hdec, rfl, State.memRead_memWrite_self hwf _ _⟩

end

section
/-! PROOFS. The text front end (30_encoding.md): the tokens of a line, the grammar of a token, the order of the checks,
the `OPSEL` codes, and the host's table words. -/

namespace Sys2Proof

/-! ## Separators and tokens -/

/-- The white-space set of R45. -/
theorem isWhitespace_iff (c : Char) : isWhitespace c = true ↔ c.toNat ∈ [0x20, 0x09, 0x0A, 0x0B, 0x0C, 0x0D] := by
  simp [isWhitespace, or_assoc]

/-- The punctuation set of R44. -/
theorem isPunctuation_iff (c : Char) : isPunctuation c = true ↔ c ∈ [',', '(', ')'] := by
  simp [isPunctuation, or_assoc]

/-- Replacing punctuation, with the set of R44 written out. -/
theorem replacePunctuation_eq_map (line : Line) :
    replacePunctuation line = line.map fun c => if c ∈ [',', '(', ')'] then ' ' else c := by
  simp only [replacePunctuation, isPunctuation_iff]

/-- No punctuation is left after replacing it. -/
theorem isPunctuation_of_mem_replacePunctuation {line : Line} :
    ∀ c ∈ replacePunctuation line, isPunctuation c = false := by
  intro c hc
  obtain ⟨d, -, rfl⟩ := List.mem_map.1 hc
  by_cases hd : isPunctuation d = true
  · rw [if_pos hd]; decide
  · rw [if_neg hd]; simpa using hd

/-- Punctuation makes no difference to the token list but as a space (R44). -/
@[simp] theorem tokenize_replacePunctuation (line : Line) : tokenize (replacePunctuation line) = tokenize line := by
  rw [tokenize, tokenize, replacePunctuation_of_run _ isPunctuation_of_mem_replacePunctuation]

/-- A line of no characters has no token (R45). -/
@[simp] theorem tokenize_nil : tokenize [] = [] := rfl

/-- A stretch without separators is one token (R45). -/
theorem tokenize_of_run {run : Line} (hne : run ≠ [])
    (h : ∀ c ∈ run, isWhitespace c = false ∧ isPunctuation c = false) : tokenize run = [run] := by
  have hsplit : splitRuns [] (run ++ []) = splitRuns run [] := splitRuns_of_run run [] [] fun c hc => (h c hc).1
  rw [tokenize, replacePunctuation_of_run run fun c hc => (h c hc).2, ← run.append_nil, hsplit, splitRuns, if_neg hne,
    run.append_nil]

section Separator
variable {c : Char} (hc : isWhitespace c = true ∨ isPunctuation c = true)
include hc

/-- The tokens of a line stand on either side of a separator in it (R44, R45). -/
theorem tokenize_append_separator (before after : Line) :
    tokenize (before ++ c :: after) = tokenize before ++ tokenize after := by
  rw [tokenize, replacePunctuation_append]
  exact splitRuns_at_whitespace _ (replacePunctuation after) (isWhitespace_of_separator hc) []

/-- A separator at the start of a line makes no token. -/
theorem tokenize_separator_cons (after : Line) : tokenize (c :: after) = tokenize after :=
  tokenize_append_separator hc [] after

end Separator

/-- `Parse` depends on a line through its tokens only (R50). -/
theorem parse_congr {l l' : Line} (h : tokenize l = tokenize l') : parse l = parse l' := by
  rw [parse, parse, decode, decode, h]

/-! ## Digits -/

/-- The ASCII digits by their characters (R46, R47). -/
theorem isDigit_iff (c : Char) : isDigit c = true ↔ '0'.toNat ≤ c.toNat ∧ c.toNat ≤ '9'.toNat := by
  simp [isDigit]

/-- The fold over the digits is the library's base ten value, which takes the last digit first. -/
theorem decimalValue_eq_ofDigits (ds : Line) :
    decimalValue ds = Nat.ofDigits 10 (ds.reverse.map fun c => c.toNat - '0'.toNat) := by
  induction ds using List.reverseRecOn with
  | nil => rfl
  | append_singleton ds c ih =>
    rw [decimalValue_snoc, ih, List.reverse_append, List.reverse_singleton, List.singleton_append, List.map_cons,
      Nat.ofDigits_cons, Nat.add_comm]
    rfl

/-- A decimal number: one or more ASCII digits, read in base ten (R46, R47). -/
theorem decimal?_eq_some_iff_ofDigits (ds : Line) (n : Nat) :
    decimal? ds = some n ↔ ds ≠ [] ∧ (∀ c ∈ ds, '0'.toNat ≤ c.toNat ∧ c.toNat ≤ '9'.toNat) ∧
      n = Nat.ofDigits 10 (ds.reverse.map fun c => c.toNat - '0'.toNat) := by
  simp only [decimal?_eq_some, isDigit_iff, decimalValue_eq_ofDigits]

/-! ## Operand tokens -/

/-- A register token is the sigil and a decimal number (R46). -/
theorem regToken_eq_ok_iff (tok : Line) (n : Nat) :
    regToken tok = .ok n ↔ ∃ ds, tok = Config.sigil :: ds ∧ decimal? ds = some n := by
  cases tok with
  | nil => simp [regToken]
  | cons c ds =>
    by_cases hc : c = Config.sigil
    · cases hd : decimal? ds <;> simp [regToken, hc, hd]
    · simp [regToken, hc]

/-- What a minus sign does (R47). -/
theorem immToken_minus_eq_ok_iff (ds : Line) (n : Int) :
    immToken ('-' :: ds) = .ok n ↔ ∃ m : Nat, decimal? ds = some m ∧ n = -(m : Int) := by
  cases hd : decimal? ds <;> simp [immToken, hd, eq_comm]

/-- What a plus sign does (R47). -/
theorem immToken_plus_eq_ok_iff (ds : Line) (n : Int) :
    immToken ('+' :: ds) = .ok n ↔ ∃ m : Nat, decimal? ds = some m ∧ n = (m : Int) := by
  cases hd : decimal? ds <;> simp [immToken, hd, eq_comm]

/-- A token that opens with no sign is read as it stands (R47). -/
theorem immToken_unsigned_eq_ok_iff {tok : Line} (hm : tok.head? ≠ some '-') (hp : tok.head? ≠ some '+') (n : Int) :
    immToken tok = .ok n ↔ ∃ m : Nat, decimal? tok = some m ∧ n = (m : Int) := by
  cases tok with
  | nil => simp [immToken, decimal?]
  | cons c ds =>
    have hm' : c ≠ '-' := by simpa using hm
    have hp' : c ≠ '+' := by simpa using hp
    cases hd : decimal? (c :: ds) <;> simp [immToken, hm', hp', hd, eq_comm]

/-- A decimal number opens with no sign. -/
theorem head?_of_decimal? {ds : Line} {m : Nat} (h : decimal? ds = some m) :
    ds.head? ≠ some '-' ∧ ds.head? ≠ some '+' := by
  obtain ⟨-, hdig, -⟩ := (decimal?_eq_some ds m).1 h
  have hspecial := fun c (hc : ds.head? = some c) => not_special_of_isDigit (hdig c (List.mem_of_head? hc))
  refine ⟨fun hc => ?_, fun hc => ?_⟩
  · obtain ⟨-, -, -, hminus, -⟩ := hspecial _ hc
    exact hminus rfl
  · obtain ⟨-, -, -, -, hplus⟩ := hspecial _ hc
    exact hplus rfl

/-- An immediate token is a decimal number behind an optional sign (R47). -/
theorem immToken_eq_ok_iff (tok : Line) (n : Int) :
    immToken tok = .ok n ↔ ∃ (ds : Line) (m : Nat), decimal? ds = some m ∧
      ((tok = '-' :: ds ∧ n = -(m : Int)) ∨ ((tok = ds ∨ tok = '+' :: ds) ∧ n = (m : Int))) := by
  constructor
  · intro h
    by_cases hm : tok.head? = some '-'
    · obtain ⟨ds, rfl⟩ := List.head?_eq_some_iff.1 hm
      obtain ⟨m, hd, hn⟩ := (immToken_minus_eq_ok_iff ds n).1 h
      exact ⟨ds, m, hd, .inl ⟨rfl, hn⟩⟩
    by_cases hp : tok.head? = some '+'
    · obtain ⟨ds, rfl⟩ := List.head?_eq_some_iff.1 hp
      obtain ⟨m, hd, hn⟩ := (immToken_plus_eq_ok_iff ds n).1 h
      exact ⟨ds, m, hd, .inr ⟨.inr rfl, hn⟩⟩
    · obtain ⟨m, hd, hn⟩ := (immToken_unsigned_eq_ok_iff hm hp n).1 h
      exact ⟨tok, m, hd, .inr ⟨.inl rfl, hn⟩⟩
  · rintro ⟨ds, m, hd, ⟨rfl, hn⟩ | ⟨rfl | rfl, hn⟩⟩
    · exact (immToken_minus_eq_ok_iff ds n).2 ⟨m, hd, hn⟩
    · obtain ⟨hm, hp⟩ := head?_of_decimal? hd
      exact (immToken_unsigned_eq_ok_iff hm hp n).2 ⟨m, hd, hn⟩
    · exact (immToken_plus_eq_ok_iff ds n).2 ⟨m, hd, hn⟩

/-! ## The checks of `Parse` in their order -/

/-- A line without tokens is malformed (R55). -/
theorem parse_of_no_token {line : Line} (ht : tokenize line = []) : parse line = .error .malformedInstruction := by
  rw [parse_eq_error_iff, ht, decodeTokens]

/-- A known opcode wants three operand tokens (R56). -/
theorem decodeTokens_of_length_ne_three (op : Opcode) {rest : List Line} (h : rest.length ≠ 3) :
    decodeTokens (op.name :: rest) = .error .malformedInstruction := by
  simp only [decodeTokens, opcodeToken_name]
  split
  · exact absurd rfl h
  · rfl

/-- A known opcode and three operand tokens: the extraction rule of the opcode decides (R50). -/
theorem parse_of_four_tokens {line : Line} {op : Opcode} {t1 t2 t3 : Line}
    (ht : tokenize line = [op.name, t1, t2, t3]) :
    parse line = (decodeOperands op t1 t2 t3).map Instr.decoded := by
  simp only [parse, decode, ht, decodeTokens, opcodeToken_name]

/-! ## What each format extracts -/

/-- Format M is that of the two memory opcodes (R41). -/
theorem Opcode.format_eq_m_iff (op : Opcode) : op.format = .m ↔ op = .lw ∨ op = .sw := by
  cases op <;> decide

/-- Format B is that of `beq` alone (R43). -/
theorem Opcode.format_eq_b_iff (op : Opcode) : op.format = .b ↔ op = .beq := by
  cases op <;> decide

/-- Format M: `op rt, imm(rs)` gives `[rs, rt]` and the immediate (R41). -/
theorem decodeOperands_m {op : Opcode} {t1 t2 t3 : Line} {rt rs : Nat} {imm : Int} (hf : op.format = .m)
    (h1 : regToken t1 = .ok rt) (h2 : immToken t2 = .ok imm) (h3 : regToken t3 = .ok rs) :
    (decodeOperands op t1 t2 t3).map Instr.decoded = .ok ⟨op, [rs, rt], imm⟩ := by
  rcases op.format_eq_m_iff.1 hf with rfl | rfl <;> simp only [decodeOperands, h1, h2, h3] <;> rfl

/-- Format R: `op rd, rs, rt` gives `[rs, rt, rd]` and 0 (R42). -/
theorem decodeOperands_r {op : Opcode} {t1 t2 t3 : Line} {rd rs rt : Nat} (hf : op.format = .r)
    (h1 : regToken t1 = .ok rd) (h2 : regToken t2 = .ok rs) (h3 : regToken t3 = .ok rt) :
    (decodeOperands op t1 t2 t3).map Instr.decoded = .ok ⟨op, [rs, rt, rd], 0⟩ := by
  rcases op.format_eq_r_iff.1 hf with rfl | rfl | rfl | rfl <;> simp only [decodeOperands, h1, h2, h3] <;> rfl

/-- Format B: `op rs, rt, imm` gives `[rs, rt]` and the immediate (R43). -/
theorem decodeOperands_b {op : Opcode} {t1 t2 t3 : Line} {rs rt : Nat} {imm : Int} (hf : op.format = .b)
    (h1 : regToken t1 = .ok rs) (h2 : regToken t2 = .ok rt) (h3 : immToken t3 = .ok imm) :
    (decodeOperands op t1 t2 t3).map Instr.decoded = .ok ⟨op, [rs, rt], imm⟩ := by
  obtain rfl := op.format_eq_b_iff.1 hf
  simp only [decodeOperands, h1, h2, h3]
  rfl

/-! ## The codes -/

/-- Every code is the unassigned one or that of an opcode (R60). -/
theorem eq_unassigned_or_opsel (code : BitVec 3) : code = 7#3 ∨ ∃ op : Opcode, op.opsel = code := by
  have h : ∀ code : BitVec 3, code = 7#3 ∨ ∃ op ∈ Opcode.all, op.opsel = code := by decide
  exact (h code).imp_right fun ⟨op, _, hop⟩ => ⟨op, hop⟩

/-- No opcode has the unassigned code (R60). -/
theorem Opcode.opsel_ne_unassigned (op : Opcode) : op.opsel ≠ 7#3 := by
  cases op <;> decide

/-! ## The host's table words -/

/-- The word of an opcode's code stands for the opcode's line with zero operands. -/
theorem lineOfTableWord_opsel (op : Opcode) : lineOfTableWord 8 op.opsel.toNat = encode op.zeroOperands := by
  have hlt : op.opsel.toNat < 8 := op.opsel.isLt
  have hmod : op.opsel.toNat % 2 ^ 8 = op.opsel.toNat := Nat.mod_eq_of_lt (by omega)
  simp only [lineOfTableWord, hmod, if_pos hlt, BitVec.ofNat_toNat, BitVec.setWidth_eq, opcodeOfSelect_opsel]

/-- Any other 8-bit word stands for its own digits. -/
theorem lineOfTableWord_unassigned {w : Nat} (h7 : 7 ≤ w) (h256 : w < 256) : lineOfTableWord 8 w = decimalDigits w := by
  rcases h7.eq_or_lt with rfl | h8
  · rfl
  · have hmod : w % 2 ^ 8 = w := Nat.mod_eq_of_lt h256
    simp only [lineOfTableWord, hmod, if_neg (not_lt.2 (Nat.succ_le_of_lt h8))]

/-- The canonical line of each opcode with zero operands decodes to it: one closed evaluation per opcode. -/
theorem decode_encode_zeroOperands (op : Opcode) : decode (encode op.zeroOperands) = .ok op.zeroOperands := by
  cases op <;> decide

/-- The digits of a number are one token. -/
theorem tokenize_decimalDigits (n : Nat) : tokenize (decimalDigits n) = [decimalDigits n] := by
  obtain ⟨hne, -⟩ := (decimal?_eq_some _ n).1 (decimal?_decimalDigits n)
  refine tokenize_of_run hne fun c hc => ?_
  obtain ⟨hws, hpunct, -⟩ := not_special_of_isDigit (decimalDigits_digits n c hc)
  exact ⟨hws, hpunct⟩

/-- An opcode's name opens with no digit, so it is the digits of no number. -/
theorem Opcode.name_ne_decimalDigits (op : Opcode) (n : Nat) : op.name ≠ decimalDigits n := by
  intro h
  have hall : op.name.all isDigit = true := List.all_eq_true.2 (h ▸ decimalDigits_digits n)
  have hnot : op.name.all isDigit = false := by cases op <;> decide
  simp [hnot] at hall

/-- A line of digits alone spells no instruction. -/
theorem decode_decimalDigits (n : Nat) : decode (decimalDigits n) = .error .unknownOpcode := by
  rw [decode, tokenize_decimalDigits, decodeTokens_of_not_name [] fun op => op.name_ne_decimalDigits n]

end Sys2Proof

namespace Sys2Proof.Machine

/-! ## The ports on a code -/

/-- At the code of an opcode the port of `Ctl` gives the opcode's row (R20, R60). -/
@[simp] theorem ctlPort_opsel (op : Opcode) : ctlPort op.opsel = .ok (ctl op) := by
  simp [ctlPort, Except.map]

/-- The `unknown` wire of `Ctl` is 1 on the unassigned code only (R66). -/
theorem ctlCircuit_unknown_iff (free : Levels) (code : BitVec 3) :
    (ctlCircuit free code).unknown = true ↔ code = 7#3 := by
  simp only [ctlCircuit, codeIs, beq_iff_eq, BitVec.toNat_eq]
  rfl

/-- At the code of an opcode the `unknown` wire of `Alu` is 0 (R66). -/
theorem aluCircuit_unknown_opsel (free : AluPorts) (w : Width) (op : Opcode) (a b : Val) :
    (aluCircuit free w op.opsel a b).unknown = false := by
  have hport := aluPort_opsel w op a b
  cases h : alu w op a b with
  | num v => rw [aluCircuit_of_num (hport.trans (by rw [h]))]
  | bool t => rw [aluCircuit_of_bool (hport.trans (by rw [h]))]

/-- The `unknown` wire of `Alu` is 1 on the unassigned code only (R66). -/
theorem aluCircuit_unknown_iff (free : AluPorts) (w : Width) (code : BitVec 3) (a b : Val) :
    (aluCircuit free w code a b).unknown = true ↔ code = 7#3 := by
  rcases eq_unassigned_or_opsel code with rfl | ⟨op, rfl⟩
  · simp [aluCircuit_of_error (aluPort_unassigned w a b)]
  · simp [aluCircuit_unknown_opsel, op.opsel_ne_unassigned]

/-! ## A step on a placed line -/

/-- The line placed at the pc is the one fetched (R129). -/
theorem State.fetch_loadLine {line : Line} {i : Instr} (s : State) (h : decode line = .ok i) :
    (s.loadLine line).fetch = .ok i := by
  simp [State.fetch, placeLine_get, h]

/-- A step runs the instruction it has fetched (R129). -/
theorem step_of_fetch {s : State} {i : Instr} (h : s.fetch = .ok i) : step s = exec i s := by
  simp only [step, h]

end Sys2Proof.Machine

open Sys2Proof Sys2Proof.Machine

/-- Settles O3: the two character sets, the replacement that can be done twice, and what a run and a separator give. -/
theorem tokensAreMaximalRuns : Obligations.TokensAreMaximalRuns := by
  unfold Obligations.TokensAreMaximalRuns
  refine ⟨isWhitespace_iff, isPunctuation_iff, fun line => ?_, tokenize_nil, fun _ => tokenize_of_run,
    fun before after _ hc => tokenize_append_separator hc before after⟩
  rw [← replacePunctuation_eq_map, tokenize_replacePunctuation]

/-- Settles O4: the four pairs of lines have the same tokens, since a separator gives none and only ends a token. -/
theorem parseIgnoresPunctuation : Obligations.ParseIgnoresPunctuation := by
  unfold Obligations.ParseIgnoresPunctuation
  refine ⟨fun before after c d hc hd => ⟨parse_congr ?_, parse_congr ?_, parse_congr ?_, parse_congr ?_⟩, by decide⟩
  · rw [tokenize_append_separator hc, tokenize_append_separator hd]
  · rw [tokenize_append_separator hc, tokenize_append_separator hc, tokenize_separator_cons hd]
  · exact tokenize_separator_cons hc after
  · rw [tokenize_append_separator hc, tokenize_nil, List.append_nil]

/-- Settles O5: the sigil and a decimal number; the examples are evaluated. -/
theorem registerTokenGrammar : Obligations.RegisterTokenGrammar := by
  unfold Obligations.RegisterTokenGrammar
  refine ⟨fun tok n => ?_, fun _ _ => regToken_error, by decide, by decide, by decide⟩
  simp only [regToken_eq_ok_iff, decimal?_eq_some_iff_ofDigits, Config.sigil]

/-- Settles O6: an optional sign and a decimal number; the examples are evaluated. -/
theorem immediateTokenGrammar : Obligations.ImmediateTokenGrammar := by
  unfold Obligations.ImmediateTokenGrammar
  refine ⟨fun tok n => ?_, fun _ _ => immToken_error, by decide, by decide, by decide, by decide, by decide, by decide⟩
  simp only [immToken_eq_ok_iff, decimal?_eq_some_iff_ofDigits, and_assoc, exists_and_left, exists_eq_left]

/-- Settles O7: the checks of `Parse` one after the other; the consequences that R146 lists are evaluated. -/
theorem parseReportsTheFirstDefect : Obligations.ParseReportsTheFirstDefect := by
  unfold Obligations.ParseReportsTheFirstDefect
  refine ⟨fun _ => parse_of_no_token, fun _ _ _ ht => (parse_eq_unknownOpcode_iff ht).2, fun _ op _ ht hlen => ?_,
    fun _ _ _ _ ht he => ?_, by decide, by decide⟩
  · rw [parse_eq_error_iff, ht, decodeTokens_of_length_ne_three op hlen]
  · rw [parse_eq_error_iff, ht] at he
    exact decodeTokens_name_error he

/-- Settles O2: the opcodes of each format and what the format extracts; the worked examples are evaluated. -/
theorem operandExtractionFollowsFormat : Obligations.OperandExtractionFollowsFormat := by
  unfold Obligations.OperandExtractionFollowsFormat
  refine ⟨fun op => ⟨op.format_eq_m_iff, op.format_eq_b_iff, op.format_eq_r_iff⟩, fun line op t1 t2 t3 ht => ?_,
    by decide, by decide, by decide, by decide⟩
  rw [parse_of_four_tokens ht]
  exact ⟨fun hf _ _ _ => decodeOperands_m hf, fun hf _ _ _ => decodeOperands_r hf, fun hf _ _ _ => decodeOperands_b hf⟩

/-- Settles O12: the seven codes as they are defined, and the lookup that inverts them. -/
theorem opcodeSelectCodes : Obligations.OpcodeSelectCodes := by
  unfold Obligations.OpcodeSelectCodes
  exact ⟨rfl, rfl, rfl, rfl, rfl, rfl, rfl, opcodeOfSelect_opsel, rfl⟩

/-- Settles O17: the code of any opcode is assigned, and the `unknown` wires tell the unassigned code apart. -/
theorem parsedTextDrivesAssignedCodes : Obligations.ParsedTextDrivesAssignedCodes := by
  unfold Obligations.ParsedTextDrivesAssignedCodes
  refine ⟨fun _ d _ => ⟨ctlPort_opsel d.op, fun w => aluPort_opsel w d.op, fun free => ?_,
    fun free w => aluCircuit_unknown_opsel free w d.op⟩, ctlCircuit_unknown_iff, aluCircuit_unknown_iff⟩
  exact Bool.eq_false_iff.2 (mt (ctlCircuit_unknown_iff free _).1 d.op.opsel_ne_unassigned)

/-- Settles O52: the word of a code stands for a line that decodes, any other word for digits that do not. -/
theorem tableWordsRunTheirInstruction : Obligations.TableWordsRunTheirInstruction := by
  unfold Obligations.TableWordsRunTheirInstruction
  have hline : ∀ op : Opcode, decode (lineOfTableWord 8 op.opsel.toNat) = .ok op.zeroOperands := fun op => by
    rw [lineOfTableWord_opsel, decode_encode_zeroOperands]
  refine ⟨fun op => ?_, fun w h7 h256 => ?_, fun op s => step_of_fetch (s.fetch_loadLine (hline op))⟩
  · rw [decodeTableWord, hline]; rfl
  · rw [decodeTableWord, lineOfTableWord_unassigned h7 h256, decode_decimalDigits]; rfl

end

section
/-! PROOFS. The control lookup (40_control_lookup.md): what each signal is 1 on, where the `X` cells stand, and the
two-level circuit as the table with the `X` cells filled in. -/

namespace Sys2Proof.Machine

/-! ## The signals over the seven rows -/

/-- Only `beq` may redirect control flow (R91). -/
theorem ctl_branch_eq_one_iff (op : Opcode) : (ctl op).branch = .one ↔ op = .beq := by
  cases op <;> decide

/-- Only `lw` reads data memory (R91). -/
theorem ctl_memRead_eq_one_iff (op : Opcode) : (ctl op).memRead = .one ↔ op = .lw := by
  cases op <;> decide

/-- Only `lw` writes a register from memory (R91). -/
theorem ctl_memtoReg_eq_one_iff (op : Opcode) : (ctl op).memtoReg = .one ↔ op = .lw := by
  cases op <;> decide

/-- The immediate enters `Alu` in format M only (R91). -/
theorem ctl_aluSrc_eq_one_iff (op : Opcode) : (ctl op).aluSrc = .one ↔ op.format = .m := by
  cases op <;> decide

/-- The opcodes that write a register (R91). -/
theorem ctl_regWrite_eq_one_iff (op : Opcode) :
    (ctl op).regWrite = .one ↔ op = .add ∨ op = .sub ∨ op = .lw ∨ op = .and ∨ op = .or := by
  cases op <;> decide

/-- The opcodes that write no register (R87). -/
theorem ctl_regWrite_eq_zero_iff (op : Opcode) : (ctl op).regWrite = .zero ↔ op = .sw ∨ op = .beq := by
  cases op <;> decide

/-- The destination is left open exactly where no register is written (R87, R91). -/
theorem ctl_regDst_eq_dontCare_iff (op : Opcode) : (ctl op).regDst = .dontCare ↔ (ctl op).regWrite = .zero := by
  cases op <;> decide

/-- The source of the register value is left open exactly where no register is written (R87, R91). -/
theorem ctl_memtoReg_eq_dontCare_iff (op : Opcode) : (ctl op).memtoReg = .dontCare ↔ (ctl op).regWrite = .zero := by
  cases op <;> decide

/-- The other five signals are concrete in every row (R91). -/
theorem ctl_concrete (op : Opcode) :
    (ctl op).aluSrc ≠ .dontCare ∧ (ctl op).branch ≠ .dontCare ∧ (ctl op).memRead ≠ .dontCare ∧
      (ctl op).memWrite ≠ .dontCare ∧ (ctl op).regWrite ≠ .dontCare := by
  cases op <;> decide

/-- No opcode both reads and writes data memory (R91). -/
theorem ctl_not_memRead_and_memWrite (op : Opcode) : ¬((ctl op).memRead = .one ∧ (ctl op).memWrite = .one) := by
  rw [ctl_memRead_eq_one_iff, ctl_memWrite_eq_one_iff]
  rintro ⟨rfl, hsw⟩
  cases hsw

/-- On the unassigned code the port of `Ctl` has no vector (R88). -/
@[simp] theorem ctlPort_unassigned : ctlPort 7#3 = .error .unknownOpcode := rfl

/-! ## Refinement as filling in the `X` cells -/

/-- The level of a cell on a wire that carries `free` where the cell leaves it open (R89). -/
def Tri.fill (t : Tri) (free : Bool) : Bool :=
  match t with
  | .zero => false
  | .one => true
  | .dontCare => free

/-- A row with its `X` cells filled in from `free` (R89). -/
def fillRow (r : ControlVector) (free : Levels) : Levels where
  regDst := Tri.fill r.regDst free.regDst
  aluSrc := Tri.fill r.aluSrc free.aluSrc
  branch := Tri.fill r.branch free.branch
  memRead := Tri.fill r.memRead free.memRead
  memWrite := Tri.fill r.memWrite free.memWrite
  regWrite := Tri.fill r.regWrite free.regWrite
  memtoReg := Tri.fill r.memtoReg free.memtoReg

/-- A level refines a cell when it agrees with the cell's concrete level, if there is one (R89). -/
theorem Tri.refinedBy_iff (t : Tri) (level : Bool) :
    Tri.refinedBy t level = true ↔ (t = .zero → level = false) ∧ (t = .one → level = true) := by
  cases t <;> simp [Tri.refinedBy]

/-- A level refines a cell when filling the cell in with it gives it back. -/
theorem Tri.refinedBy_iff_fill_eq (t : Tri) (level : Bool) :
    Tri.refinedBy t level = true ↔ Tri.fill t level = level := by
  cases t <;> cases level <;> decide

/-- What is filled in a second time changes nothing. -/
@[simp] theorem Tri.fill_fill (t : Tri) (free : Bool) : Tri.fill t (Tri.fill t free) = Tri.fill t free := by
  cases t <;> rfl

/-- Refining a row is refining each of its cells (R89). -/
theorem refines_iff_refinedBy (v : Levels) (r : ControlVector) :
    refines v r = true ↔
      Tri.refinedBy r.regDst v.regDst = true ∧ Tri.refinedBy r.aluSrc v.aluSrc = true ∧
      Tri.refinedBy r.branch v.branch = true ∧ Tri.refinedBy r.memRead v.memRead = true ∧
      Tri.refinedBy r.memWrite v.memWrite = true ∧ Tri.refinedBy r.regWrite v.regWrite = true ∧
      Tri.refinedBy r.memtoReg v.memtoReg = true := by
  simp only [refines, Bool.and_eq_true, and_assoc]

/-- The refinements of a row are the vectors that filling the row in gives back. -/
theorem refines_iff_fill_eq (v : Levels) (r : ControlVector) : refines v r = true ↔ fillRow r v = v := by
  simp only [refines_iff_refinedBy, Tri.refinedBy_iff_fill_eq]
  cases v
  simp only [fillRow, Levels.mk.injEq]

/-- A row filled in is a refinement of the row, whatever fills it in. -/
theorem refines_fill (r : ControlVector) (free : Levels) : refines (fillRow r free) r = true := by
  simp only [refines_iff_fill_eq, fillRow, Tri.fill_fill]

/-! ## The circuit -/

/-- At the code of an opcode the circuit drives the opcode's row, its `X` cells filled in from the free wires, and
`unknown` 0: one look at the truth table of R92 per opcode. -/
theorem ctlCircuit_opsel (free : Levels) (op : Opcode) :
    ctlCircuit free op.opsel = { signals := fillRow (ctl op) free, unknown := false } := by
  cases op <;> rfl

/-- On the unassigned code every wire is free and `unknown` is 1 (R92). -/
theorem ctlCircuit_unassigned (free : Levels) : ctlCircuit free 7#3 = { signals := free, unknown := true } := rfl

end Sys2Proof.Machine

open Sys2Proof Sys2Proof.Machine

/-- Settles O15: the circuit's output is the row with its `X` cells filled in from the free wires, and a refinement of
the row is what comes out when the free wires carry it. -/
theorem circuitOutputsAreTheRefinements : Obligations.CircuitOutputsAreTheRefinements := by
  unfold Obligations.CircuitOutputsAreTheRefinements
  refine ⟨fun v r => ?_, fun free op => ?_, fun op v hv => ⟨v, ?_⟩, ctlCircuit_unassigned⟩
  · simp only [refines_iff_refinedBy, Tri.refinedBy_iff]
  · rw [ctlCircuit_opsel]
    exact ⟨refines_fill (ctl op) free, rfl⟩
  · rw [ctlCircuit_opsel]
    exact (refines_iff_fill_eq v (ctl op)).1 hv

/-- Settles O13: each assigned code is an opcode's, and the port gives that opcode's row. -/
theorem controlTableRows : Obligations.ControlTableRows := by
  unfold Obligations.ControlTableRows
  exact ⟨ctlPort_opsel .add, ctlPort_opsel .sub, ctlPort_opsel .lw, ctlPort_opsel .sw, ctlPort_opsel .beq,
    ctlPort_opsel .and, ctlPort_opsel .or, ctlPort_unassigned⟩

/-- Settles O14: the places of the `X` cells, and for each signal the opcodes on which it is 1. -/
theorem controlTableInvariants : Obligations.ControlTableInvariants := by
  unfold Obligations.ControlTableInvariants
  refine ⟨fun op => (ctl_memtoReg_eq_dontCare_iff op).2, rfl, rfl, by decide, fun op => ?_⟩
  obtain ⟨haluSrc, hbranch, hmemRead, hmemWrite, hregWrite⟩ := ctl_concrete op
  exact ⟨fun h => h.elim (ctl_regDst_eq_dontCare_iff op).1 (ctl_memtoReg_eq_dontCare_iff op).1,
    haluSrc, hbranch, hmemRead, hmemWrite, hregWrite, ctl_not_memRead_and_memWrite op, ctl_branch_eq_one_iff op,
    ctl_memRead_eq_one_iff op, ctl_memWrite_eq_one_iff op,
    fun h => (ctl_memRead_eq_one_iff op).2 ((ctl_memtoReg_eq_one_iff op).1 h), ctl_aluSrc_eq_one_iff op,
    ctl_regWrite_eq_one_iff op, ctl_regWrite_eq_zero_iff op⟩

end

section
/-! PROOFS. The evaluators (41_alu_rtype.md): AND and OR on the infinite expansions as the bit-vector operations of
every width, what wrapping commutes with, and the next state of an instruction of format R. -/

namespace Sys2Proof

/-! ## An integer is known from its patterns -/

/-- A finite width is well formed when it has at least one bit. -/
theorem wellFormed_bits_iff (k : Nat) : (Width.bits k).wellFormed = true ↔ 1 ≤ k := by
  simp [Width.wellFormed]

/-- Some finite width has two given integers in its range. -/
theorem exists_bits_inRange (a b : Int) :
    ∃ k, (Width.bits k).wellFormed = true ∧ (Width.bits k).inRange a = true ∧ (Width.bits k).inRange b = true := by
  have hlt : a.natAbs + b.natAbs < 2 ^ (a.natAbs + b.natAbs) := Nat.lt_two_pow_self
  refine ⟨a.natAbs + b.natAbs + 1, (wellFormed_bits_iff _).2 (by omega), ?_, ?_⟩
  · rw [inRange_bits_iff, Nat.add_sub_cancel]; omega
  · rw [inRange_bits_iff, Nat.add_sub_cancel]; omega

/-- The signed reading of the pattern of an in-range integer is that integer. -/
theorem toInt_ofInt_of_inRange {k : Nat} {n : Int} (hw : (Width.bits k).wellFormed = true)
    (h : (Width.bits k).inRange n = true) : (BitVec.ofInt k n).toInt = n := by
  rw [← wrap_bits_eq_toInt, wrap_of_inRange hw h]

/-- Integers with the same pattern in every width are equal: some width has both in range. -/
theorem eq_of_forall_ofInt_eq {a b : Int} (h : ∀ k, BitVec.ofInt k a = BitVec.ofInt k b) : a = b := by
  obtain ⟨k, hw, ha, hb⟩ := exists_bits_inRange a b
  rw [← toInt_ofInt_of_inRange hw ha, h k, toInt_ofInt_of_inRange hw hb]

/-! ## AND and OR of integers, carried over from bit vectors -/

/-- AND of the signed readings is the signed reading of the AND (R103, R104): in every width both have the pattern of
the sign extension. -/
theorem bitAnd_toInt {k : Nat} (x y : BitVec k) : bitAnd x.toInt y.toInt = (x &&& y).toInt :=
  eq_of_forall_ofInt_eq fun j => (ofInt_bitAnd j _ _).trans BitVec.signExtend_and.symm

/-- OR of the signed readings is the signed reading of the OR (R103, R105). -/
theorem bitOr_toInt {k : Nat} (x y : BitVec k) : bitOr x.toInt y.toInt = (x ||| y).toInt :=
  eq_of_forall_ofInt_eq fun j => (ofInt_bitOr j _ _).trans BitVec.signExtend_or.symm

/-- AND is commutative (R104). -/
theorem bitAnd_comm (a b : Int) : bitAnd a b = bitAnd b a :=
  eq_of_forall_ofInt_eq fun k => by rw [ofInt_bitAnd, ofInt_bitAnd, BitVec.and_comm]

/-- OR is commutative (R105). -/
theorem bitOr_comm (a b : Int) : bitOr a b = bitOr b a :=
  eq_of_forall_ofInt_eq fun k => by rw [ofInt_bitOr, ofInt_bitOr, BitVec.or_comm]

/-- The pattern of -1 is all ones. -/
theorem ofInt_neg_one (k : Nat) : BitVec.ofInt k (-1) = BitVec.allOnes k :=
  BitVec.ofInt_neg.trans BitVec.neg_one_eq_allOnes

/-- 0 annihilates AND (R104). -/
@[simp] theorem bitAnd_zero (a : Int) : bitAnd a 0 = 0 :=
  eq_of_forall_ofInt_eq fun k => by simp [ofInt_bitAnd]

/-- -1 is neutral for AND (R104). -/
@[simp] theorem bitAnd_neg_one (a : Int) : bitAnd a (-1) = a :=
  eq_of_forall_ofInt_eq fun k => by rw [ofInt_bitAnd, ofInt_neg_one, BitVec.and_allOnes]

/-- AND is idempotent (R104). -/
@[simp] theorem bitAnd_self (a : Int) : bitAnd a a = a :=
  eq_of_forall_ofInt_eq fun k => by rw [ofInt_bitAnd, BitVec.and_self]

/-- 0 is neutral for OR (R105). -/
@[simp] theorem bitOr_zero (a : Int) : bitOr a 0 = a :=
  eq_of_forall_ofInt_eq fun k => by simp [ofInt_bitOr]

/-- -1 absorbs under OR (R105). -/
@[simp] theorem bitOr_neg_one (a : Int) : bitOr a (-1) = -1 :=
  eq_of_forall_ofInt_eq fun k => by rw [ofInt_bitOr, ofInt_neg_one, BitVec.or_allOnes]

/-- OR is idempotent (R105). -/
@[simp] theorem bitOr_self (a : Int) : bitOr a a = a :=
  eq_of_forall_ofInt_eq fun k => by rw [ofInt_bitOr, BitVec.or_self]

/-- AND absorbs OR (95_test_vectors.md section 2.3). -/
theorem bitAnd_bitOr_self (a b : Int) : bitAnd a (bitOr a b) = a := by
  refine eq_of_forall_ofInt_eq fun k => ?_
  rw [ofInt_bitAnd, ofInt_bitOr]
  generalize BitVec.ofInt k a = x
  generalize BitVec.ofInt k b = y
  ext i
  cases h : x[i] <;> simp [h]

/-- The common bits and the bits of either add up to the sum: with `d` the bits of `y` that are not bits of `x`, OR is
`x + d` and `y` is AND plus `d`, both without a carry. -/
theorem and_add_or_eq_add {k : Nat} (x y : BitVec k) : (x &&& y) + (x ||| y) = x + y := by
  have hor : x + (y &&& ~~~x) = x ||| y := by
    rw [BitVec.add_eq_or_of_and_eq_zero]
    · ext i; cases h : x[i] <;> simp [h]
    · ext i; cases h : x[i] <;> simp [h]
  have hy : (x &&& y) + (y &&& ~~~x) = y := by
    rw [BitVec.add_eq_or_of_and_eq_zero]
    · ext i; cases h : x[i] <;> simp [h]
    · ext i; cases h : x[i] <;> simp [h]
  calc (x &&& y) + (x ||| y)
    _ = (x &&& y) + (x + (y &&& ~~~x)) := by rw [hor]
    _ = x + ((x &&& y) + (y &&& ~~~x)) := by ac_rfl
    _ = x + y := by rw [hy]

/-- AND and OR of two integers add up to their sum (95_test_vectors.md section 2.3). -/
theorem bitAnd_add_bitOr (a b : Int) : bitAnd a b + bitOr a b = a + b :=
  eq_of_forall_ofInt_eq fun k => by
    rw [BitVec.ofInt_add, BitVec.ofInt_add, ofInt_bitAnd, ofInt_bitOr, and_add_or_eq_add]

/-! ## Signs and bits of AND and OR -/

/-- An AND is negative exactly when both operands are (R104). -/
theorem bitAnd_neg_iff (a b : Int) : bitAnd a b < 0 ↔ a < 0 ∧ b < 0 := by
  cases a <;> cases b <;> simp [bitAnd, Int.negSucc_lt_zero, Int.not_ofNat_neg]

/-- An OR is negative exactly when one operand is (R105). -/
theorem bitOr_neg_iff (a b : Int) : bitOr a b < 0 ↔ a < 0 ∨ b < 0 := by
  cases a <;> cases b <;> simp [bitOr, Int.negSucc_lt_zero, Int.not_ofNat_neg]

/-- The spec's `bit_i` is 1 where the expansion has its bit set. -/
theorem bitOf_eq_one_iff (i : Nat) (n : Int) : bitOf i n = 1 ↔ n.testBit i = true := by
  rw [bitOf_eq]
  cases n.testBit i <;> decide

/-- `bit_i` of an AND (R104). -/
theorem bitOf_bitAnd_eq_one_iff (i : Nat) (a b : Int) :
    bitOf i (bitAnd a b) = 1 ↔ bitOf i a = 1 ∧ bitOf i b = 1 := by
  simp only [bitOf_eq_one_iff, testBit_bitAnd, Bool.and_eq_true]

/-- `bit_i` of an OR (R105). -/
theorem bitOf_bitOr_eq_one_iff (i : Nat) (a b : Int) :
    bitOf i (bitOr a b) = 1 ↔ bitOf i a = 1 ∨ bitOf i b = 1 := by
  simp only [bitOf_eq_one_iff, testBit_bitOr, Bool.or_eq_true]

/-! ## What wrapping commutes with (R106) -/

/-- Wrapping may be done before an addition. -/
theorem wrap_add_wrap (w : Width) (a b : Int) : w.wrap (w.wrap a + w.wrap b) = w.wrap (a + b) := by
  cases w with
  | unbounded => rfl
  | bits k => simp only [Width.wrap, Int.bmod_add_bmod, Int.add_bmod_bmod]

/-- Wrapping may be done before a subtraction. -/
theorem wrap_sub_wrap (w : Width) (a b : Int) : w.wrap (w.wrap a - w.wrap b) = w.wrap (a - b) := by
  cases w with
  | unbounded => rfl
  | bits k => simp only [Width.wrap, Int.bmod_sub_bmod, Int.sub_bmod_bmod]

/-- Wrapping an AND is the AND of the wrapped operands. -/
theorem wrap_bitAnd (w : Width) (a b : Int) : w.wrap (bitAnd a b) = bitAnd (w.wrap a) (w.wrap b) := by
  cases w with
  | unbounded => rfl
  | bits k => simp only [wrap_bits_eq_toInt, ofInt_bitAnd, bitAnd_toInt]

/-- Wrapping an OR is the OR of the wrapped operands. -/
theorem wrap_bitOr (w : Width) (a b : Int) : w.wrap (bitOr a b) = bitOr (w.wrap a) (w.wrap b) := by
  cases w with
  | unbounded => rfl
  | bits k => simp only [wrap_bits_eq_toInt, ofInt_bitOr, bitOr_toInt]

/-- Wrapping leaves 0 alone, in any width at all. -/
@[simp] theorem wrap_zero (w : Width) : w.wrap 0 = 0 := by
  cases w with
  | unbounded => rfl
  | bits k => exact Int.zero_bmod

section InRange
variable {w : Width} {a b : Int} (hw : w.wellFormed = true) (ha : w.inRange a = true) (hb : w.inRange b = true)
include hw ha hb

/-- The AND of in-range values needs no wrapping. -/
theorem inRange_bitAnd : w.inRange (bitAnd a b) = true := by
  rw [← wrap_of_inRange hw ha, ← wrap_of_inRange hw hb, ← wrap_bitAnd]
  exact wrap_inRange w _

/-- The OR of in-range values needs no wrapping. -/
theorem inRange_bitOr : w.inRange (bitOr a b) = true := by
  rw [← wrap_of_inRange hw ha, ← wrap_of_inRange hw hb, ← wrap_bitOr]
  exact wrap_inRange w _

end InRange

/-- Subtracting a summand from a wrapped sum leaves the other summand (95_test_vectors.md section 2.3). -/
theorem wrap_wrap_add_sub {w : Width} {a : Int} (hw : w.wellFormed = true) (ha : w.inRange a = true) (b : Int) :
    w.wrap (w.wrap (a + b) - b) = a := by
  have hwrap : w.wrap (w.wrap (a + b) - b) = w.wrap (a + b - b) := by
    cases w with
    | unbounded => rfl
    | bits k => simp only [Width.wrap, Int.bmod_sub_bmod]
  rw [hwrap, Int.add_sub_cancel, wrap_of_inRange hw ha]

end Sys2Proof

namespace Sys2Proof.Machine

/-! ## The evaluators -/

/-- The evaluator of `add` (R101). -/
theorem alu_add (w : Width) (a b : Val) : alu w .add a b = .num (w.wrap (a + b)) := rfl

/-- The evaluator of `sub` (R102). -/
theorem alu_sub (w : Width) (a b : Val) : alu w .sub a b = .num (w.wrap (a - b)) := rfl

/-- The evaluator of `and` (R104). -/
theorem alu_and (w : Width) (a b : Val) : alu w .and a b = .num (bitAnd a b) := rfl

/-- The evaluator of `or` (R105). -/
theorem alu_or (w : Width) (a b : Val) : alu w .or a b = .num (bitOr a b) := rfl

/-- Comparing does not depend on the order (R116). -/
theorem valuesEqual_comm (a b : Val) : valuesEqual a b = valuesEqual b a := by
  simp only [valuesEqual, eq_comm]

/-- Where the exact result is in range, the evaluators of any width give it (R106). -/
theorem alu_eq_num_of_unbounded {w : Width} {op : Opcode} {a b v : Val} (hw : w.wellFormed = true)
    (hv : w.inRange v = true) (h : alu .unbounded op a b = .num v) : alu w op a b = .num v := by
  cases op with
  | add | sub | lw | sw =>
    cases h
    exact congrArg AluResult.num (wrap_of_inRange hw hv)
  | and | or => exact h
  | beq => cases h

/-- A result in the range of 5 bits is given from 5 bits on (R106). -/
theorem alu_eq_num_of_five_le {k : Nat} {op : Opcode} {a b v : Val} (hk : 5 ≤ k)
    (hv : (Width.bits 5).inRange v = true) (h : alu .unbounded op a b = .num v) : alu (.bits k) op a b = .num v := by
  have hfits : immWidthFits (.bits 5) (.bits k) = true := by simpa [immWidthFits] using hk
  exact alu_eq_num_of_unbounded ((wellFormed_bits_iff k).2 (by omega)) (inRange_of_fits hfits hv) h

/-- The five functions that R100 tells apart differ at the operands 12 and 10. -/
theorem alu_twelve_ten_ne :
    ∀ op ∈ [Opcode.add, .sub, .beq, .and, .or], ∀ op' ∈ [Opcode.add, .sub, .beq, .and, .or],
      op ≠ op' → alu (.bits 32) op 12 10 ≠ alu (.bits 32) op' 12 10 := by decide

/-! ## The instructions of format R -/

/-- What an instruction of format R does past its index check: the result goes to `rd`, and the pc to the next line
(R134). -/
theorem exec_rFormat_eq_next {i : Instr} {s : State} {rd : Nat} {v : Val} (hf : i.opcode.format = .r)
    (hr : indicesInRange i s = true) (hrd : i.rd? = some rd)
    (hv : alu s.width i.opcode (s.readReg i.rs) (s.readReg i.rt) = .num v) :
    exec i s = .next (s.writeReg rd v).advance := by
  have himm : takeImmediate i s = .ok 0 := by simp [takeImmediate, hf]
  have hrow : ctl i.opcode = rFormatRow := by
    rcases i.opcode.format_eq_r_iff.1 hf with h | h | h | h <;> rw [h] <;> rfl
  have hb : operandB rFormatRow i 0 s = s.readReg i.rt := rfl
  have hd : destination rFormatRow i = some rd := hrd
  rw [exec_eq_runInstr, runInstr, hrow, datapath_eq hr himm, operandA, hb, hv, hd]
  rfl

/-- The index check of format R asks for three registers that the caller has (R127). -/
theorem indicesInRange_of_ops {i : Instr} {s : State} {rd rs rt : Nat} (hops : i.ops = [rs, rt, rd])
    (hrd : rd < s.nregs) (hrs : rs < s.nregs) (hrt : rt < s.nregs) : indicesInRange i s = true := by
  simp [indicesInRange_iff, hops, hrd, hrs, hrt]

end Sys2Proof.Machine

open Sys2Proof Sys2Proof.Machine

/-- Settles O20: wrapping commutes with the four operations, and an in-range integer is left alone by wrapping. -/
theorem fixedWidthAgreesWithUnbounded : Obligations.FixedWidthAgreesWithUnbounded := by
  unfold Obligations.FixedWidthAgreesWithUnbounded
  refine ⟨fun w a b _ => ⟨(wrap_add_wrap w a b).symm, (wrap_sub_wrap w a b).symm, wrap_bitAnd w a b,
      wrap_bitOr w a b⟩,
    fun w a b hw ha hb => ⟨inRange_bitAnd hw ha hb, inRange_bitOr hw ha hb, ?_⟩,
    fun w op a b v hw hv h => alu_eq_num_of_unbounded hw hv h, fun k hk => ?_⟩
  · rw [wrap_of_inRange hw ha, wrap_of_inRange hw hb, alu_beq, alu_beq]
  · exact ⟨alu_eq_num_of_five_le hk (by decide) rfl, alu_eq_num_of_five_le hk (by decide) rfl,
      alu_eq_num_of_five_le hk (by decide) rfl, alu_eq_num_of_five_le hk (by decide) rfl⟩

/-- Settles O21: the pattern of a wrapped sum or difference is that of the bit-vector operation, and AND and OR of
signed readings are signed readings. -/
theorem finiteWidthResultsAreBitVectors : Obligations.FiniteWidthResultsAreBitVectors := by
  unfold Obligations.FiniteWidthResultsAreBitVectors
  intro k x y _
  have hadd : alu (.bits k) .add x.toInt y.toInt = .num (x + y).toInt := by rw [BitVec.toInt_add]; rfl
  refine ⟨hadd, ?_, hadd, hadd, ?_, ?_, ?_⟩
  · rw [BitVec.toInt_sub]; rfl
  · rw [alu_and, bitAnd_toInt]
  · rw [alu_or, bitOr_toInt]
  · simp only [alu_beq, valuesEqual, BitVec.toInt_inj]

/-- Settles O22: the laws of the integer operations, which wrapping respects. -/
theorem evaluatorAlgebra : Obligations.EvaluatorAlgebra := by
  unfold Obligations.EvaluatorAlgebra
  intro w a b hw ha _
  refine ⟨wrap_wrap_add_sub hw ha b, bitAnd_bitOr_self a b, by rw [bitAnd_add_bitOr], bitAnd_comm a b,
    bitOr_comm a b, ?_⟩
  rw [alu_beq, alu_beq, valuesEqual_comm]

/-- Settles O23: the wrapped sum, and what format R does with it; the corner cases are evaluated. -/
theorem addInstruction : Obligations.AddInstruction := by
  unfold Obligations.AddInstruction
  refine ⟨rfl, rfl, fun w a b => ⟨alu_add w a b, ?_, fun hw ha => ?_⟩, by decide, by decide, by decide, by decide,
    by decide, fun rd rs rt s hrd hrs hrt => ?_⟩
  · rw [alu_add, alu_add, Int.add_comm]
  · rw [alu_add, Int.add_zero, wrap_of_inRange hw ha]
  · exact exec_rFormat_eq_next rfl (indicesInRange_of_ops rfl hrd hrs hrt) rfl rfl

/-- Settles O24: the wrapped difference, and what format R does with it; the corner cases are evaluated. -/
theorem subInstruction : Obligations.SubInstruction := by
  unfold Obligations.SubInstruction
  refine ⟨rfl, rfl, fun w a b => ⟨alu_sub w a b, ?_, ?_, fun hw ha => ?_⟩, by decide, by decide, by decide, by decide,
    by decide, fun rd rs rt s hrd hrs hrt => ?_⟩
  · rw [alu_sub, Int.sub_self, wrap_zero]
  · rw [alu_sub, Int.zero_sub]
  · rw [alu_sub, Int.sub_zero, wrap_of_inRange hw ha]
  · exact exec_rFormat_eq_next rfl (indicesInRange_of_ops rfl hrd hrs hrt) rfl rfl

/-- Settles O25: the bits and the sign of an AND, and what format R does with it; the corner cases are evaluated. -/
theorem andInstruction : Obligations.AndInstruction := by
  unfold Obligations.AndInstruction
  refine ⟨rfl, rfl,
    fun w a b => ⟨bitAnd a b, alu_and w a b, fun i => bitOf_bitAnd_eq_one_iff i a b, bitAnd_neg_iff a b⟩,
    fun k x y _ => by rw [alu_and, bitAnd_toInt], fun w a => ?_, by decide, by decide, by decide, by decide,
    fun rd rs rt s hrd hrs hrt => ?_⟩
  · simp only [alu_and, bitAnd_zero, bitAnd_neg_one, bitAnd_self, and_self]
  · exact exec_rFormat_eq_next rfl (indicesInRange_of_ops rfl hrd hrs hrt) rfl rfl

/-- Settles O26: the bits and the sign of an OR, and what format R does with it; the corner cases are evaluated. -/
theorem orInstruction : Obligations.OrInstruction := by
  unfold Obligations.OrInstruction
  refine ⟨rfl, rfl,
    fun w a b => ⟨bitOr a b, alu_or w a b, fun i => bitOf_bitOr_eq_one_iff i a b, bitOr_neg_iff a b⟩,
    fun k x y _ => by rw [alu_or, bitOr_toInt], fun w a => ?_, by decide, by decide, by decide, by decide,
    fun rd rs rt s hrd hrs hrt => ?_⟩
  · simp only [alu_or, bitOr_zero, bitOr_neg_one, bitOr_self, and_self]
  · exact exec_rFormat_eq_next rfl (indicesInRange_of_ops rfl hrd hrs hrt) rfl rfl

/-- Settles O18: the port on the code of each opcode, and one pair of operands on which the five functions differ. -/
theorem aluAppliesTheEvaluator : Obligations.AluAppliesTheEvaluator := by
  unfold Obligations.AluAppliesTheEvaluator
  refine ⟨fun w a b => ⟨aluPort_opsel w .add a b, aluPort_opsel w .sub a b, aluPort_opsel w .lw a b,
    aluPort_opsel w .sw a b, aluPort_opsel w .beq a b, aluPort_opsel w .and a b, aluPort_opsel w .or a b,
    aluPort_unassigned w a b, rfl, rfl⟩, fun op op' hop hop' hne heq => ?_⟩
  exact alu_twelve_ten_ne op hop op' hop' hne (by rw [heq])

end

section
/-! PROOFS. The address evaluators (42_alu_address.md): the effective address that `lw` and `sw` share, and the next
state of each past its checks. -/

namespace Sys2Proof.Machine

/-! ## The effective address -/

/-- The evaluator of `lw` (R110). -/
theorem alu_lw (w : Width) (base offset : Val) : alu w .lw base offset = .num (w.wrap (base + offset)) := rfl

/-- The evaluator of `sw` is that of `lw` (R111). -/
theorem alu_sw_eq_alu_lw (w : Width) (base offset : Val) : alu w .sw base offset = alu w .lw base offset := rfl

/-- At offset 0 the effective address is the base itself (R110). -/
theorem alu_lw_zero_offset {w : Width} {base : Val} (hw : w.wellFormed = true) (hb : w.inRange base = true) :
    alu w .lw base 0 = .num base := by
  rw [alu_lw, Int.add_zero, wrap_of_inRange hw hb]

/-- The key that is accessed is the wrapped sum of the base register and the immediate (R112). -/
theorem accessKey_eq (s : State) (imm : Int) (rs : Nat) :
    accessKey s imm rs = s.width.wrap (s.readReg rs + imm) := rfl

/-! ## The checks of format M -/

/-- The index check of a format without `rd` asks for two registers that the caller has (R127). -/
theorem indicesInRange_of_two_ops {i : Instr} {s : State} {rs rt : Nat} (hops : i.ops = [rs, rt])
    (hrs : rs < s.nregs) (hrt : rt < s.nregs) : indicesInRange i s = true := by
  simp [indicesInRange_iff, hops, hrs, hrt]

end Sys2Proof.Machine

open Sys2Proof Sys2Proof.Machine

/-- Settles O27: the wrapped sum, and the register write that `lw` does past its checks; the corner cases are
evaluated. -/
theorem loadInstruction : Obligations.LoadInstruction := by
  unfold Obligations.LoadInstruction
  refine ⟨rfl, rfl, rfl, fun w base offset => ⟨alu_lw w base offset, alu_lw_zero_offset⟩, by decide, by decide,
    fun rt rs imm s hrt hrs himm => ?_⟩
  rw [exec_lw_eq_next (indicesInRange_of_two_ops rfl hrs hrt) himm, accessKey_eq]
  rfl

/-- Settles O28: the evaluator of `lw` again, and the memory write that `sw` does past its checks; the corner cases are
evaluated. -/
theorem storeInstruction : Obligations.StoreInstruction := by
  unfold Obligations.StoreInstruction
  refine ⟨rfl, rfl, rfl, fun w base offset => ⟨?_, alu_sw_eq_alu_lw w base offset, fun hw hb => ?_⟩, by decide,
    by decide, fun rt rs imm s hrt hrs himm => ?_⟩
  · rw [alu_sw_eq_alu_lw, alu_lw]
  · rw [alu_sw_eq_alu_lw, alu_lw_zero_offset hw hb]
  · rw [exec_sw_eq_next (indicesInRange_of_two_ops rfl hrs hrt) himm, accessKey_eq]
    rfl

end

section
/-! PROOFS. The comparison and control transfer (43_alu_compare.md): the evaluator of `beq` as a subtractor with a zero
detector, its next state taken and not taken, and the pc of every other instruction. -/

namespace Sys2Proof

/-- The wrapped difference of two in-range values is 0 exactly when they are equal: adding the subtrahend back gives the
minuend (R103, R116). -/
theorem wrap_sub_eq_zero_iff {w : Width} {a b : Int} (hw : w.wellFormed = true) (ha : w.inRange a = true)
    (hb : w.inRange b = true) : w.wrap (a - b) = 0 ↔ a = b := by
  constructor
  · intro h
    calc a
      _ = w.wrap (a - b + b) := by rw [Int.sub_add_cancel, wrap_of_inRange hw ha]
      _ = w.wrap (w.wrap (a - b) + w.wrap b) := (wrap_add_wrap w _ _).symm
      _ = b := by rw [h, Int.zero_add, wrap_of_inRange hw hb, wrap_of_inRange hw hb]
  · rintro rfl
    rw [Int.sub_self, wrap_zero]

end Sys2Proof

namespace Sys2Proof.Machine

/-! ## The comparison -/

/-- The evaluator of `beq` answers true exactly on equal values (R116). -/
theorem alu_beq_eq_true_iff (w : Width) (a b : Val) : alu w .beq a b = .bool true ↔ a = b := by
  simp [alu_beq, valuesEqual]

/-- The `eq` wire of the port carries the comparison (R21, R116). -/
theorem aluCircuit_beq_eq (free : AluPorts) (w : Width) (a b : Val) :
    (aluCircuit free w Opcode.beq.opsel a b).eq = valuesEqual a b := by
  rw [aluCircuit_of_bool ((aluPort_opsel w .beq a b).trans (congrArg Except.ok (alu_beq w a b)))]

/-! ## The last phase -/

/-- A branch is taken by a `beq` whose evaluator answers true, and by nothing else (R117). -/
theorem branchTaken_ctl_iff (op : Opcode) (r : AluResult) :
    branchTaken (ctl op) r = true ↔ op = .beq ∧ r = .bool true := by
  rw [branchTaken, decide_eq_true_iff, ctl_branch_eq_one_iff]

/-- The pc phase of a taken branch jumps to the branch target (R131). -/
theorem pcStage_of_taken {cv : ControlVector} {r : AluResult} (iv : Val) (s : State) (h : branchTaken cv r = true) :
    pcStage cv r iv s = s.jump (s.branchTarget s.pc iv) :=
  if_pos h

/-- The pc phase goes on to the next line where no branch is taken (R131). -/
theorem pcStage_of_not_taken {cv : ControlVector} {r : AluResult} (iv : Val) (s : State)
    (h : ¬branchTaken cv r = true) : pcStage cv r iv s = .next s.advance :=
  if_neg h

/-- A jump to a line of the program or one past the last sets the pc and nothing else (R131). -/
theorem State.jump_of_mem_program {s : State} {n : Int} (h0 : 0 ≤ n) (h1 : n ≤ s.prog.length) :
    s.jump n = .next { s with pc := n.toNat } :=
  if_neg (by omega)

/-! ## The instruction `beq` -/

section Beq
variable {rs rt : Nat} {imm : Int} {s : State} (hr : indicesInRange (.beq rs rt imm) s = true)
  (hi : s.immWidth.inRange imm = true)
include hr hi

/-- Past its checks `beq` is the pc phase alone, on the comparison of its two registers (R134). -/
theorem exec_beq_eq_pcStage :
    exec (.beq rs rt imm) s = pcStage (ctl .beq) (alu s.width .beq (s.readReg rs) (s.readReg rt)) imm s := by
  have himm : takeImmediate (.beq rs rt imm) s = .ok imm :=
    (takeImmediate_eq_ok_iff (i := .beq rs rt imm) nofun).2 ⟨hi, rfl⟩
  rw [exec_eq_runInstr, runInstr, datapath_eq hr himm]
  rfl

/-- On equal values `beq` jumps to its target (R116, R131). -/
theorem exec_beq_of_eq (h : s.readReg rs = s.readReg rt) :
    exec (.beq rs rt imm) s = s.jump (s.branchTarget s.pc imm) := by
  rw [exec_beq_eq_pcStage hr hi, pcStage_of_taken]
  exact (branchTaken_ctl_iff _ _).2 ⟨rfl, (alu_beq_eq_true_iff _ _ _).2 h⟩

/-- On differing values `beq` goes on to the next line (R116, R131). -/
theorem exec_beq_of_ne (h : s.readReg rs ≠ s.readReg rt) : exec (.beq rs rt imm) s = .next s.advance := by
  rw [exec_beq_eq_pcStage hr hi, pcStage_of_not_taken]
  exact fun htaken => h ((alu_beq_eq_true_iff _ _ _).1 ((branchTaken_ctl_iff _ _).1 htaken).2)

end Beq

/-! ## The pc after an instruction -/

/-- The store phase leaves the pc alone. -/
@[simp] theorem pc_storeStage (cv : ControlVector) (r : AluResult) (st : Val) (s : State) :
    (storeStage cv r st s).pc = s.pc := by
  rcases storeStage_cases cv r st s with h | ⟨k, -, h⟩ <;> rw [h]
  exact s.memWrite_pc k st

/-- The register write leaves the pc alone. -/
@[simp] theorem pc_writeBackStage (cv : ControlVector) (d : Option Nat) (w : Option Val) (s : State) :
    (writeBackStage cv d w s).pc = s.pc := by
  rcases writeBackStage_cases cv d w s with h | ⟨r, v, -, -, h⟩ <;> rw [h]
  exact s.writeReg_pc r v

/-- Every instruction but `beq` that goes on goes on to the next line (R117, R131). -/
theorem pc_of_exec_next {i : Instr} {s t : State} (h : exec i s = .next t) (hop : i.opcode ≠ .beq) :
    t.pc = s.pc + 1 := by
  rw [exec_eq_runInstr] at h
  obtain ⟨hr, iv, hi⟩ := datapath_next h
  rw [runInstr, datapath_eq hr hi,
    pcStage_of_not_taken _ _ fun htaken => hop ((branchTaken_ctl_iff _ _).1 htaken).1] at h
  cases h
  rw [State.advance_pc, pc_writeBackStage, pc_storeStage]

/-- A `beq` that goes on, but not to the next line, has found its registers equal (R117). -/
theorem readReg_eq_of_exec_beq_pc_ne {rs rt : Nat} {imm : Int} {s t : State} (h : exec (.beq rs rt imm) s = .next t)
    (hpc : t.pc ≠ s.pc + 1) : s.readReg rs = s.readReg rt := by
  obtain ⟨hr, hi⟩ := checks_of_exec_next (i := .beq rs rt imm) nofun h
  by_contra hne
  rw [exec_beq_of_ne hr hi hne] at h
  cases h
  exact hpc s.advance_pc

end Sys2Proof.Machine

open Sys2Proof Sys2Proof.Machine

/-- Settles O29: the comparison at the evaluator, the port and the subtractor, and the two ends of the pc phase that is
all `beq` does past its checks; the rule's examples are evaluated. -/
theorem branchInstruction : Obligations.BranchInstruction := by
  unfold Obligations.BranchInstruction
  refine ⟨rfl, rfl, rfl, fun w a b => ⟨alu_beq w a b, (alu_beq_eq_true_iff w a a).2 rfl⟩, aluCircuit_beq_eq,
    fun k a b hk ha hb => ?_, by decide, by decide, by decide, fun rs rt imm s hrs hrt himm hne => ?_,
    fun rs rt imm s hrs hrt himm heq h0 h1 => ?_⟩
  · rw [alu_beq_eq_true_iff, wrap_sub_eq_zero_iff ((wellFormed_bits_iff k).2 hk) ha hb]
  · exact exec_beq_of_ne (indicesInRange_of_two_ops rfl hrs hrt) himm hne
  · rw [exec_beq_of_eq (indicesInRange_of_two_ops rfl hrs hrt) himm heq, State.jump_of_mem_program h0 h1]

/-- Settles O37: every other opcode goes on to the next line, and so does a `beq` on differing values. -/
theorem onlyBeqRedirectsControl : Obligations.OnlyBeqRedirectsControl := by
  unfold Obligations.OnlyBeqRedirectsControl
  intro i s t h hpc
  have hop : i.opcode = .beq := by_contra fun hop => hpc (pc_of_exec_next h hop)
  cases i with
  | beq rs rt imm =>
    have heq : s.readReg rs = s.readReg rt := readReg_eq_of_exec_beq_pc_ne h hpc
    exact ⟨⟨rs, rt, imm, rfl⟩, (ctl_branch_eq_one_iff _).2 rfl, (alu_beq_eq_true_iff _ _ _).2 heq⟩
  | add | sub | lw | sw | and | or => cases hop

end

section
/-! PROOFS. The reference caller (44_caller_composition.md): what an instruction can do, said once for the seven, and
from it the frames, the invariant, the stops of a step and the safety of a run; data memory as a map. -/

namespace Sys2Proof.Machine

/-! ## What an instruction can do -/

/-- Format R is not that of `beq`. -/
theorem ne_beq_of_format_r {op : Opcode} (hf : op.format = .r) : op ≠ .beq := by
  rintro rfl
  cases hf

/-- An instruction of format R has a destination. -/
theorem exists_rd_of_format_r {i : Instr} (hf : i.opcode.format = .r) : ∃ rd, i.rd? = some rd := by
  cases i with
  | add rd | sub rd | and rd | or rd => exact ⟨rd, rfl⟩
  | lw | sw | beq => cases hf

/-- The register index check fails on an index that is not below `NREGS` (R127). -/
theorem indicesInRange_eq_false_iff (i : Instr) (s : State) :
    indicesInRange i s = false ↔ ∃ r ∈ i.ops, s.nregs ≤ r := by
  rw [← Bool.not_eq_true, indicesInRange_iff]
  simp only [not_forall, not_lt, exists_prop]

/-- The states in which an instruction that passes its checks can end: one register write, one memory write or neither,
and then the next line, or the target of a taken branch (R134). -/
inductive Effect (s : State) : Instr → State → Prop where
  | rFormat {i : Instr} {rd : Nat} {v : Val} (hf : i.opcode.format = .r) (hrd : i.rd? = some rd)
      (hv : alu s.width i.opcode (s.readReg i.rs) (s.readReg i.rt) = .num v) : Effect s i (s.writeReg rd v).advance
  | load (rt : Nat) (imm : Int) (rs : Nat) :
      Effect s (.lw rt imm rs) (s.writeReg rt (s.memRead (accessKey s imm rs))).advance
  | store (rt : Nat) (imm : Int) (rs : Nat) :
      Effect s (.sw rt imm rs) (s.memWrite (accessKey s imm rs) (s.readReg rt)).advance
  | branchNotTaken {rs rt : Nat} (imm : Int) (hne : s.readReg rs ≠ s.readReg rt) : Effect s (.beq rs rt imm) s.advance
  | branchTaken {rs rt : Nat} {imm : Int} (heq : s.readReg rs = s.readReg rt) (h0 : 0 ≤ s.branchTarget s.pc imm)
      (h1 : s.branchTarget s.pc imm ≤ s.prog.length) :
      Effect s (.beq rs rt imm) { s with pc := (s.branchTarget s.pc imm).toNat }

/-- The target of a branch is neither a line of the program nor one past the last (R131). -/
def targetOutside (s : State) (imm : Int) : Prop :=
  s.branchTarget s.pc imm < 0 ∨ (s.prog.length : Int) < s.branchTarget s.pc imm

/-- A register index that is not below `NREGS` stops an instruction, ahead of every other check (R127). -/
theorem exec_of_index_out {i : Instr} {s : State} (hr : indicesInRange i s = false) :
    exec i s = .fault .registerIndexOutOfRange := by
  rw [exec_eq_runInstr, runInstr, datapath_index_fault hr]

/-- An immediate outside the range of `IMM_W` stops an instruction that has one (R125). -/
theorem exec_of_immediate_out {i : Instr} {s : State} (hr : indicesInRange i s = true) (hf : i.opcode.format ≠ .r)
    (hi : s.immWidth.inRange i.imm = false) : exec i s = .fault .immediateOutOfRange := by
  rcases takeImmediate_cases i s with ⟨hf', -⟩ | ⟨-, hi', -⟩ | ⟨-, -, ht⟩
  · exact absurd hf' hf
  · rw [hi] at hi'; cases hi'
  · rw [exec_eq_runInstr, runInstr, datapath_immediate_fault hr ht]

/-- A taken branch to a target outside the program stops (R131). -/
theorem exec_beq_of_target_outside {rs rt : Nat} {imm : Int} {s : State}
    (hr : indicesInRange (.beq rs rt imm) s = true) (hi : s.immWidth.inRange imm = true)
    (heq : s.readReg rs = s.readReg rt) (hout : targetOutside s imm) :
    exec (.beq rs rt imm) s = .fault .pcOutOfRange :=
  (exec_beq_of_eq hr hi heq).trans (if_pos hout)

/-- Everything an instruction can do: the three stops in the order of the checks (R127, R125, R131), or its effect. -/
theorem exec_cases (i : Instr) (s : State) :
    (indicesInRange i s = false ∧ exec i s = .fault .registerIndexOutOfRange) ∨
    (indicesInRange i s = true ∧ i.opcode.format ≠ .r ∧ s.immWidth.inRange i.imm = false ∧
      exec i s = .fault .immediateOutOfRange) ∨
    (∃ rs rt imm, i = .beq rs rt imm ∧ indicesInRange i s = true ∧ s.immWidth.inRange imm = true ∧
      s.readReg rs = s.readReg rt ∧ targetOutside s imm ∧ exec i s = .fault .pcOutOfRange) ∨
    (∃ t, Effect s i t ∧ exec i s = .next t) := by
  cases hr : indicesInRange i s with
  | false => exact .inl ⟨rfl, exec_of_index_out hr⟩
  | true =>
    refine .inr ?_
    rcases takeImmediate_cases i s with ⟨hf, -⟩ | ⟨hf, hi, -⟩ | ⟨hf, hi, -⟩
    · obtain ⟨rd, hrd⟩ := exists_rd_of_format_r hf
      obtain ⟨v, hv⟩ := alu_eq_num_of_ne_beq s.width (s.readReg i.rs) (s.readReg i.rt) (ne_beq_of_format_r hf)
      exact .inr (.inr ⟨_, .rFormat hf hrd hv, exec_rFormat_eq_next hf hr hrd hv⟩)
    · cases i with
      | add | sub | and | or => exact absurd rfl hf
      | lw rt imm rs => exact .inr (.inr ⟨_, .load rt imm rs, exec_lw_eq_next hr hi⟩)
      | sw rt imm rs => exact .inr (.inr ⟨_, .store rt imm rs, exec_sw_eq_next hr hi⟩)
      | beq rs rt imm =>
        by_cases heq : s.readReg rs = s.readReg rt
        · have hjump := exec_beq_of_eq hr hi heq
          rcases s.jump_cases (s.branchTarget s.pc imm) with ⟨hout, hj⟩ | ⟨h0, h1, hj⟩
          · exact .inr (.inl ⟨rs, rt, imm, rfl, rfl, hi, heq, hout, hjump.trans hj⟩)
          · exact .inr (.inr ⟨_, .branchTaken heq h0 h1, hjump.trans hj⟩)
        · exact .inr (.inr ⟨_, .branchNotTaken imm heq, exec_beq_of_ne hr hi heq⟩)
    · exact .inl ⟨rfl, hf, hi, exec_of_immediate_out hr hf hi⟩

/-- An instruction that goes on ends in a state of its effect. -/
theorem effect_of_exec_next {i : Instr} {s t : State} (h : exec i s = .next t) : Effect s i t := by
  rcases exec_cases i s with ⟨-, he⟩ | ⟨-, -, -, he⟩ | ⟨_, _, _, -, -, -, -, -, he⟩ | ⟨u, heff, he⟩ <;>
    rw [he] at h <;> cases h
  exact heff

/-- The instructions that the caller accepts are those that pass both checks (R125, R127). -/
theorem wellFormed_iff_checks (i : Instr) (s : State) :
    i.wellFormed s.nregs s.immWidth = true ↔
      indicesInRange i s = true ∧ (i.opcode.format = .r ∨ s.immWidth.inRange i.imm = true) := by
  simp [Instr.wellFormed, Instr.immAccepted, indicesInRange]

/-- An accepted instruction goes on, unless it is a taken branch to a target outside the program (R129, R131). -/
theorem exec_next_of_wellFormed {i : Instr} {s : State} (hwf : i.wellFormed s.nregs s.immWidth = true)
    (hbr : ∀ rs rt imm, i = .beq rs rt imm → s.readReg rs = s.readReg rt → ¬targetOutside s imm) :
    ∃ t, exec i s = .next t := by
  obtain ⟨hr, himm⟩ := (wellFormed_iff_checks i s).1 hwf
  rcases exec_cases i s with ⟨hr', -⟩ | ⟨-, hf, hi, -⟩ | ⟨rs, rt, imm, hi, -, -, heq, hout, -⟩ | ⟨t, -, he⟩
  · simp [hr] at hr'
  · simp [hf, hi] at himm
  · exact absurd hout (hbr rs rt imm hi heq)
  · exact ⟨t, he⟩

/-- An instruction stops exactly where R127, R125 and R131 say, in the order of the checks. -/
theorem exec_eq_fault_iff (i : Instr) (s : State) (f : Fault) :
    exec i s = .fault f ↔
      (f = .registerIndexOutOfRange ∧ ∃ r ∈ i.ops, s.nregs ≤ r) ∨
      (f = .immediateOutOfRange ∧ (∀ r ∈ i.ops, r < s.nregs) ∧ i.opcode.format ≠ .r ∧
        s.immWidth.inRange i.imm = false) ∨
      (f = .pcOutOfRange ∧ ∃ rs rt imm, i = .beq rs rt imm ∧ rs < s.nregs ∧ rt < s.nregs ∧
        s.immWidth.inRange imm = true ∧ s.readReg rs = s.readReg rt ∧ targetOutside s imm) := by
  constructor
  · intro h
    rcases exec_cases i s with ⟨hr, he⟩ | ⟨hr, hf, hi, he⟩ | ⟨rs, rt, imm, rfl, hr, hi, heq, hout, he⟩ | ⟨t, -, he⟩ <;>
      rw [he] at h <;> cases h
    · exact .inl ⟨rfl, (indicesInRange_eq_false_iff i s).1 hr⟩
    · exact .inr (.inl ⟨rfl, (indicesInRange_iff i s).1 hr, hf, hi⟩)
    · obtain ⟨hrs, hrt⟩ : rs < s.nregs ∧ rt < s.nregs := by simpa [indicesInRange_iff, Instr.ops] using hr
      exact .inr (.inr ⟨rfl, rs, rt, imm, rfl, hrs, hrt, hi, heq, hout⟩)
  · rintro (⟨rfl, hout⟩ | ⟨rfl, hlt, hf, hi⟩ | ⟨rfl, rs, rt, imm, rfl, hrs, hrt, hi, heq, hout⟩)
    · exact exec_of_index_out ((indicesInRange_eq_false_iff i s).2 hout)
    · exact exec_of_immediate_out ((indicesInRange_iff i s).2 hlt) hf hi
    · exact exec_beq_of_target_outside (indicesInRange_of_two_ops rfl hrs hrt) hi heq hout

/-- No instruction is refused: each of the seven has a meaning. -/
theorem exec_ne_refused (i : Instr) (s : State) (r : Refusal) : exec i s ≠ .refused r := by
  rcases exec_cases i s with ⟨-, he⟩ | ⟨-, -, -, he⟩ | ⟨_, _, _, -, -, -, -, -, he⟩ | ⟨t, -, he⟩ <;> rw [he] <;> nofun

/-! ## What a step can do -/

/-- The fetched instruction is the one that the line at the pc spells (R129). -/
theorem State.fetch_eq_ok_of_decode {s : State} {line : Line} {i : Instr} (hline : s.prog[s.pc]? = some line)
    (hdec : decode line = .ok i) : s.fetch = .ok i := by
  simp [State.fetch, hline, hdec]

/-- Where the pc is in the program or one past it, a step stops at the end of the run, on a line that does not parse,
and where the instruction stops (R129, R132, R133). -/
theorem step_eq_fault_iff {s : State} (hpc : s.pc ≤ s.prog.length) (f : Fault) :
    step s = .fault f ↔
      (s.isFinal ∧ f = .endOfRun) ∨
      (∃ line e, s.prog[s.pc]? = some line ∧ decode line = .error e ∧ f = .parseError e) ∨
      (∃ line i, s.prog[s.pc]? = some line ∧ decode line = .ok i ∧ exec i s = .fault f) := by
  rcases s.fetch_cases with ⟨hnone, hf⟩ | ⟨line, e, hline, hdec, hf⟩ | ⟨line, i, hline, hdec, hf⟩
  · have hend : s.pc = s.prog.length := le_antisymm hpc (List.getElem?_eq_none_iff.1 hnone)
    simp [step, hf, State.isFinal, hend, eq_comm]
  · have hlt := (List.getElem?_eq_some_iff.1 hline).1
    simp [step, hf, State.isFinal, hlt.ne, hline, hdec, eq_comm]
  · have hlt := (List.getElem?_eq_some_iff.1 hline).1
    simp [step, hf, State.isFinal, hlt.ne, hline, hdec]

/-- No step is refused. -/
theorem step_ne_refused (s : State) (r : Refusal) : step s ≠ .refused r := by
  rcases s.fetch_cases with ⟨-, hf⟩ | ⟨_, _, -, -, hf⟩ | ⟨_, i, -, -, hf⟩ <;> rw [step, hf]
  · nofun
  · nofun
  · exact exec_ne_refused i s r

/-! ## What no instruction changes -/

/-- What the launch supplies and no step changes (R121, R161). -/
def SameRun (t s : State) : Prop :=
  t.prog = s.prog ∧ t.width = s.width ∧ t.immWidth = s.immWidth ∧ t.targets = s.targets ∧ t.nregs = s.nregs ∧
    t.memBase = s.memBase

/-- One run has one program and one set of parameters, over any number of steps. -/
theorem SameRun.trans {u t s : State} (hu : SameRun u t) (ht : SameRun t s) : SameRun u s := by
  obtain ⟨hprog, hwidth, himm, htargets, hnregs, hbase⟩ := hu
  obtain ⟨hprog', hwidth', himm', htargets', hnregs', hbase'⟩ := ht
  exact ⟨hprog.trans hprog', hwidth.trans hwidth', himm.trans himm', htargets.trans htargets',
    hnregs.trans hnregs', hbase.trans hbase'⟩

/-- One run has one branch target for each index and displacement (R131). -/
theorem SameRun.branchTarget {t s : State} (h : SameRun t s) (n : Nat) (imm : Int) :
    t.branchTarget n imm = s.branchTarget n imm := by
  obtain ⟨-, -, -, htargets, -, -⟩ := h
  simp only [State.branchTarget, htargets]

/-- No instruction changes what the launch supplies (R129). -/
theorem Effect.sameRun {i : Instr} {s t : State} (h : Effect s i t) : SameRun t s := by
  cases h with
  | rFormat | load => exact ⟨rfl, rfl, rfl, rfl, State.nregs_writeReg _ _ _, rfl⟩
  | store | branchNotTaken | branchTaken => exact ⟨rfl, rfl, rfl, rfl, rfl, rfl⟩

/-- No step changes what the launch supplies (R121, R129). -/
theorem sameRun_of_step_next {s t : State} (h : step s = .next t) : SameRun t s := by
  obtain ⟨i, -, hexec⟩ := step_next h
  exact (effect_of_exec_next hexec).sameRun

/-- No run changes what the launch supplies (R121). -/
theorem Reaches.sameRun {s t : State} (h : Reaches s t) : SameRun t s := by
  induction h with
  | refl => exact ⟨rfl, rfl, rfl, rfl, rfl, rfl⟩
  | tail _ hstep ih => exact (sameRun_of_step_next hstep).trans ih

/-- After a register write and the move to the next line, every other register and every memory key reads as before. -/
theorem State.writeReg_advance_frame (s : State) (d : Nat) (v : Val) :
    (∀ r, r ≠ d → (s.writeReg d v).advance.readReg r = s.readReg r) ∧
      ∀ k, (s.writeReg d v).advance.memRead k = s.memRead k :=
  ⟨fun _ hr => s.readReg_writeReg_other v hr, fun _ => rfl⟩

/-- An instruction of format R writes its destination and goes on to the next line (R134). -/
theorem Effect.eq_writeReg {i : Instr} {rd : Nat} {s t : State} (h : Effect s i t) (hrd : i.rd? = some rd) :
    ∃ v, t = (s.writeReg rd v).advance := by
  cases h with
  | rFormat _ hrd' _ => exact ⟨_, by rw [Option.some.inj (hrd.symm.trans hrd')]⟩
  | load | store | branchNotTaken | branchTaken => cases hrd

/-- After an effect the pc is the target where a `beq` has found its registers equal, and one more otherwise (R131). -/
theorem Effect.pc_eq {i : Instr} {s t : State} (h : Effect s i t) :
    (i.opcode = .beq ∧ s.readReg i.rs = s.readReg i.rt ∧ (t.pc : Int) = s.branchTarget s.pc i.imm) ∨
    ((i.opcode ≠ .beq ∨ s.readReg i.rs ≠ s.readReg i.rt) ∧ t.pc = s.pc + 1) := by
  cases h with
  | rFormat hf => exact .inr ⟨.inl (ne_beq_of_format_r hf), rfl⟩
  | load | store => exact .inr ⟨.inl nofun, rfl⟩
  | branchNotTaken _ hne => exact .inr ⟨.inr hne, rfl⟩
  | branchTaken heq h0 => exact .inl ⟨rfl, heq, Int.toNat_of_nonneg h0⟩

/-! ## The invariant -/

/-- The key that `lw` and `sw` access is in range (R112). -/
theorem accessKey_inRange (s : State) (imm : Int) (rs : Nat) : s.width.inRange (accessKey s imm rs) = true :=
  wrap_inRange s.width _

namespace State.Inv
variable {s : State} (hs : s.Inv)
include hs

/-- The width of a state with the invariant is well formed. -/
theorem width_wellFormed : s.width.wellFormed = true := by
  have hp := hs.parameters
  simp only [parametersWellFormed, Bool.and_eq_true] at hp
  obtain ⟨⟨hw, -⟩, -⟩ := hp
  exact hw

/-- Every register reads in range. -/
theorem readReg_inRange (r : Nat) : s.width.inRange (s.readReg r) = true := by
  rw [State.readReg, List.getD_eq_getElem?_getD]
  cases h : s.regs[r]? with
  | none => exact inRange_zero s.width
  | some v => exact hs.regs_in_range v (List.mem_of_getElem? h)

/-- Every memory key reads in range. -/
theorem memRead_inRange (k : Val) : s.width.inRange (s.memRead k) = true := by
  rcases Memory.read_cases s.unlisted s.mem k with h | h
  · rw [State.memRead, h]; exact hs.base_in_range k
  · exact (hs.mem_in_range _ h).2

/-- Writing an in-range value to a register keeps the invariant. -/
theorem writeReg {v : Val} (hv : s.width.inRange v = true) (r : Nat) : (s.writeReg r v).Inv where
  parameters := by simpa using hs.parameters
  regs_in_range w hw := by
    rcases List.mem_or_eq_of_mem_set hw with hw | rfl
    · exact hs.regs_in_range w hw
    · exact hv
  base_in_range := hs.base_in_range
  mem_canonical := hs.mem_canonical
  mem_in_range := hs.mem_in_range
  pc_in_program := hs.pc_in_program

/-- Writing an in-range value at an in-range key keeps the invariant. -/
theorem memWrite {k v : Val} (hk : s.width.inRange k = true) (hv : s.width.inRange v = true) :
    (s.memWrite k v).Inv where
  parameters := hs.parameters
  regs_in_range := hs.regs_in_range
  base_in_range := hs.base_in_range
  mem_canonical := Memory.write_wf hs.mem_canonical k v
  mem_in_range c hc := by
    rcases Memory.mem_write hc with rfl | hc
    · exact ⟨hk, hv⟩
    · exact hs.mem_in_range c hc
  pc_in_program := hs.pc_in_program

/-- Moving the pc to a line of the program, or one past the last, keeps the invariant. -/
theorem setPc {n : Nat} (hn : n ≤ s.prog.length) : State.Inv { s with pc := n } where
  parameters := hs.parameters
  regs_in_range := hs.regs_in_range
  base_in_range := hs.base_in_range
  mem_canonical := hs.mem_canonical
  mem_in_range := hs.mem_in_range
  pc_in_program := hn

end State.Inv

/-- The evaluators take in-range operands to in-range numbers (R103, R106). -/
theorem alu_num_inRange {w : Width} {op : Opcode} {a b v : Val} (hw : w.wellFormed = true)
    (ha : w.inRange a = true) (hb : w.inRange b = true) (h : alu w op a b = .num v) : w.inRange v = true := by
  cases op with
  | add | sub | lw | sw => cases h; exact wrap_inRange w _
  | and => cases h; exact inRange_bitAnd hw ha hb
  | or => cases h; exact inRange_bitOr hw ha hb
  | beq => cases h

/-- An instruction run on a line of the program keeps the invariant. -/
theorem Effect.inv {i : Instr} {s t : State} (h : Effect s i t) (hs : s.Inv) (hpc : s.pc < s.prog.length) : t.Inv := by
  cases h with
  | rFormat _ _ hv =>
    have hv' := alu_num_inRange hs.width_wellFormed (hs.readReg_inRange i.rs) (hs.readReg_inRange i.rt) hv
    exact (hs.writeReg hv' _).setPc hpc
  | load rt imm rs => exact (hs.writeReg (hs.memRead_inRange _) rt).setPc hpc
  | store rt imm rs => exact (hs.memWrite (accessKey_inRange s imm rs) (hs.readReg_inRange rt)).setPc hpc
  | branchNotTaken => exact hs.setPc hpc
  | branchTaken _ _ h1 => exact hs.setPc (Int.toNat_le.2 h1)

/-- Every step keeps the invariant. -/
theorem State.Inv.step_next {s t : State} (hs : s.Inv) (h : step s = .next t) : t.Inv := by
  obtain ⟨i, hfetch, hexec⟩ := Machine.step_next h
  obtain ⟨line, hline, -⟩ := State.fetch_eq_ok hfetch
  exact (effect_of_exec_next hexec).inv hs (List.getElem?_eq_some_iff.1 hline).1

/-- Every run keeps the invariant. -/
theorem Reaches.inv {s t : State} (h : Reaches s t) (hs : s.Inv) : t.Inv := by
  induction h with
  | refl => exact hs
  | tail _ hstep ih => exact ih.step_next hstep

/-! ## Vectors that a step cannot tell apart -/

/-- A refinement of a concrete cell is that cell (R89). -/
theorem Tri.ofLevel_eq_of_refinedBy {t : Tri} {level : Bool} (h : Tri.refinedBy t level = true) (ht : t ≠ .dontCare) :
    Tri.ofLevel level = t := by
  cases t with
  | dontCare => exact absurd rfl ht
  | zero | one => cases level <;> trivial

/-- Where a row writes a register, it says which one and what (R87, R91). -/
theorem ctl_concrete_of_regWrite {op : Opcode} (h : (ctl op).regWrite = .one) :
    (ctl op).regDst ≠ .dontCare ∧ (ctl op).memtoReg ≠ .dontCare := by
  rw [ne_eq, ne_eq, ctl_regDst_eq_dontCare_iff, ctl_memtoReg_eq_dontCare_iff, h]
  decide

/-- The datapath depends on the five signals that it always reads, and on the other two only where a register is written
(R130). -/
theorem datapath_congr {cv cv' : ControlVector} (haluSrc : cv.aluSrc = cv'.aluSrc) (hbranch : cv.branch = cv'.branch)
    (hmemRead : cv.memRead = cv'.memRead) (hmemWrite : cv.memWrite = cv'.memWrite)
    (hregWrite : cv.regWrite = cv'.regWrite)
    (hwrite : cv'.regWrite = .one → cv.regDst = cv'.regDst ∧ cv.memtoReg = cv'.memtoReg) (i : Instr) (s : State) :
    datapath cv i s = datapath cv' i s := by
  have hback : ∀ r m t, writeBackStage cv (destination cv i) (writeBackValue cv r m) t =
      writeBackStage cv' (destination cv' i) (writeBackValue cv' r m) t := by
    intro r m t
    by_cases h1 : cv'.regWrite = .one
    · obtain ⟨hdst, hmem⟩ := hwrite h1
      simp only [writeBackStage, destination, writeBackValue, hregWrite, hdst, hmem]
    · simp only [writeBackStage, hregWrite, if_neg h1]
  cases hr : indicesInRange i s with
  | false => rw [datapath_index_fault hr, datapath_index_fault hr]
  | true =>
    cases hi : takeImmediate i s with
    | error f => rw [datapath_immediate_fault hr hi, datapath_immediate_fault hr hi]
    | ok iv =>
      have hb : operandB cv i iv s = operandB cv' i iv s := by simp only [operandB, haluSrc]
      have hload : ∀ r, memoryReadStage cv r s = memoryReadStage cv' r s := fun r => by
        simp only [memoryReadStage, hmemRead]
      have hstore : ∀ r, storeStage cv r (storeValue i s) s = storeStage cv' r (storeValue i s) s := fun r => by
        simp only [storeStage, hmemWrite]
      have hpc : ∀ r t, pcStage cv r iv t = pcStage cv' r iv t := fun r t => by
        unfold pcStage branchTaken; rw [hbranch]
      rw [datapath_eq hr hi, datapath_eq hr hi, hb, hload, hstore, hback, hpc]

/-! ## Data memory as a map -/

/-- A key that is not listed reads as the base gives it (R126). -/
theorem Memory.read_of_not_listed {u : Val → Val} {m : Memory} {k : Val} (h : ∀ c ∈ m, c.1 ≠ k) :
    Memory.read u m k = u k := by
  rcases Memory.read_cases u m k with hu | hmem
  · exact hu
  · exact absurd rfl (h _ hmem)

/-- A listed key of a canonical memory reads its own cell: no later cell has the key (R126). -/
theorem Memory.read_of_mem {u : Val → Val} {m : Memory} {k v : Val} (hm : Memory.wf u m = true) (h : (k, v) ∈ m) :
    Memory.read u m k = v := by
  induction m with
  | nil => cases h
  | cons c m ih =>
    obtain ⟨-, hlt, hwf⟩ := (Memory.wf_cons u c m).1 hm
    rcases List.mem_cons.1 h with rfl | h
    · simp [Memory.read]
    · have hne : k ≠ c.1 := (hlt _ h).ne'
      simpa [Memory.read, hne] using ih hwf h

/-- The first cell of a canonical memory shows: a memory with higher keys only reads otherwise at its key. -/
theorem Memory.read_head_ne {u : Val → Val} {c : Val × Val} {m m' : Memory} (hm : Memory.wf u (c :: m) = true)
    (h : ∀ d ∈ m', c.1 < d.1) : Memory.read u (c :: m) c.1 ≠ Memory.read u m' c.1 := by
  obtain ⟨hc, -, -⟩ := (Memory.wf_cons u c m).1 hm
  rw [Memory.read_below h]
  simpa [Memory.read] using hc

/-- A key below the first of a canonical memory is below all of them. -/
theorem Memory.lt_of_lt_head {u : Val → Val} {c : Val × Val} {m : Memory} {k : Val} (hm : Memory.wf u (c :: m) = true)
    (hk : k < c.1) : ∀ d ∈ c :: m, k < d.1 := by
  obtain ⟨-, hlt, -⟩ := (Memory.wf_cons u c m).1 hm
  exact List.forall_mem_cons.2 ⟨hk, fun d hd => hk.trans (hlt d hd)⟩

/-- A canonical memory is known from what it reads (R126): the first cells must agree, and then the rest. -/
theorem Memory.ext_of_read {u : Val → Val} {m m' : Memory} (hm : Memory.wf u m = true) (hm' : Memory.wf u m' = true)
    (h : ∀ k, Memory.read u m k = Memory.read u m' k) : m = m' := by
  induction m generalizing m' with
  | nil =>
    cases m' with
    | nil => rfl
    | cons c' m' => exact absurd (h c'.1).symm (Memory.read_head_ne hm' nofun)
  | cons c m ih =>
    cases m' with
    | nil => exact absurd (h c.1) (Memory.read_head_ne hm nofun)
    | cons c' m' =>
      obtain ⟨-, hlt, hwf⟩ := (Memory.wf_cons u c m).1 hm
      obtain ⟨-, hlt', hwf'⟩ := (Memory.wf_cons u c' m').1 hm'
      have hkey : c.1 = c'.1 := by
        rcases lt_trichotomy c.1 c'.1 with hk | hk | hk
        · exact absurd (h c.1) (Memory.read_head_ne hm (Memory.lt_of_lt_head hm' hk))
        · exact hk
        · exact absurd (h c'.1).symm (Memory.read_head_ne hm' (Memory.lt_of_lt_head hm hk))
      have hval : c.2 = c'.2 := by simpa [Memory.read, hkey] using h c.1
      have hrest : ∀ k, Memory.read u m k = Memory.read u m' k := by
        intro k
        by_cases hk : k = c.1
        · rw [Memory.read_below (hk ▸ hlt), Memory.read_below (hk ▸ hkey ▸ hlt')]
        · simpa [Memory.read, hk, ← hkey] using h k
      rw [Prod.ext hkey hval, ih hwf hwf' hrest]

/-! ## Launch states -/

/-- A launch with everything in range has the invariant (R123, R161). -/
theorem State.launch_inv {width immWidth : Width} {regs : List Val} {memBase : MemoryBase} {mem : Memory}
    (prog : List Line) (targets : List BranchPoint)
    (hparams : parametersWellFormed width immWidth regs.length = true) (hregs : ∀ v ∈ regs, width.inRange v = true)
    (hbase : ∀ v, memBase = .constant v → width.inRange v = true)
    (hcanonical : Memory.wf (Memory.unlisted width memBase) mem = true)
    (hmem : ∀ c ∈ mem, width.inRange c.1 = true ∧ width.inRange c.2 = true) :
    (State.launch width immWidth prog targets regs memBase mem).Inv where
  parameters := hparams
  regs_in_range := hregs
  base_in_range := Memory.unlisted_inRange hbase
  mem_canonical := hcanonical
  mem_in_range := hmem
  pc_in_program := Nat.zero_le _

/-- In the machine before anything is loaded every register reads 0 (log entry 1). -/
theorem State.readReg_reset (r : Nat) : State.reset.readReg r = 0 := by
  rw [State.readReg, List.getD_eq_getElem?_getD]
  simp only [State.reset, State.launch, List.getElem?_replicate]
  split <;> rfl

/-! ## The immediate -/

/-- `ImmVal` gives the immediate itself exactly where it is in range (R125). -/
theorem immVal_eq_ok_iff (w : Width) (imm : Int) : immVal w imm = .ok imm ↔ w.inRange imm = true := by
  simp [immVal]

/-- `ImmVal` is the fault exactly where the immediate is out of range (R125). -/
theorem immVal_eq_error_iff (w : Width) (imm : Int) :
    immVal w imm = .error .immediateOutOfRange ↔ w.inRange imm = false := by
  simp [immVal]

end Sys2Proof.Machine

open Sys2Proof Sys2Proof.Machine

/-- Settles O42: the register, memory and pc updates each keep the invariant, and an effect is made of them. -/
theorem stepKeepsInvariant : Obligations.StepKeepsInvariant := by
  unfold Obligations.StepKeepsInvariant
  exact fun s t hs hstep => hs.step_next hstep

/-- Settles O47: the state reached has the invariant and the program it started with, so its line spells an accepted
instruction with its targets in the program, and such an instruction goes on. -/
theorem programsWithinTheLimitsRunSafely : Obligations.ProgramsWithinTheLimitsRunSafely := by
  unfold Obligations.ProgramsWithinTheLimitsRunSafely
  intro s hs hlines htargets t ht
  obtain ⟨hprog, -, himm, -, hnregs, -⟩ := ht.sameRun
  rcases (ht.inv hs).pc_in_program.eq_or_lt with hend | hlt
  · exact .inl hend
  · have hline : t.prog[t.pc]? = some t.prog[t.pc] := List.getElem?_eq_getElem hlt
    have hline' : s.prog[t.pc]? = some t.prog[t.pc] := hprog ▸ hline
    obtain ⟨i, hdec, hwf⟩ := hlines _ (List.mem_of_getElem? hline')
    have hbr : ∀ rs rt imm, i = .beq rs rt imm → t.readReg rs = t.readReg rt → ¬targetOutside t imm := by
      rintro rs rt imm rfl - hout
      have hin := htargets t.pc _ rs rt imm hline' hdec
      rw [targetOutside, ht.sameRun.branchTarget, hprog] at hout
      omega
    obtain ⟨u, hu⟩ := exec_next_of_wellFormed (by rwa [hnregs, himm]) hbr
    exact .inr ⟨u, (step_of_fetch (State.fetch_eq_ok_of_decode hline hdec)).trans hu⟩

/-- Settles O16: a refinement keeps the five concrete cells of its row, and the other two where the row writes a
register. -/
theorem dontCareIsNeverConsulted : Obligations.DontCareIsNeverConsulted := by
  unfold Obligations.DontCareIsNeverConsulted
  refine ⟨fun op => ?_, fun v i s hv => ?_⟩
  · obtain ⟨haluSrc, hbranch, hmemRead, hmemWrite, hregWrite⟩ := ctl_concrete op
    exact ⟨haluSrc, hbranch, hmemRead, hmemWrite, hregWrite, ctl_concrete_of_regWrite⟩
  · obtain ⟨haluSrc, hbranch, hmemRead, hmemWrite, hregWrite⟩ := ctl_concrete i.opcode
    obtain ⟨vregDst, valuSrc, vbranch, vmemRead, vmemWrite, vregWrite, vmemtoReg⟩ := (refines_iff_refinedBy _ _).1 hv
    rw [exec_eq_runInstr]
    refine datapath_congr (Tri.ofLevel_eq_of_refinedBy valuSrc haluSrc) (Tri.ofLevel_eq_of_refinedBy vbranch hbranch)
      (Tri.ofLevel_eq_of_refinedBy vmemRead hmemRead) (Tri.ofLevel_eq_of_refinedBy vmemWrite hmemWrite)
      (Tri.ofLevel_eq_of_refinedBy vregWrite hregWrite) (fun hone => ?_) i s
    obtain ⟨hregDst, hmemtoReg⟩ := ctl_concrete_of_regWrite hone
    exact ⟨Tri.ofLevel_eq_of_refinedBy vregDst hregDst, Tri.ofLevel_eq_of_refinedBy vmemtoReg hmemtoReg⟩

/-- Settles O30: the four instructions of format R write `rd` and nothing else. -/
theorem registerInstructionsFrame : Obligations.RegisterInstructionsFrame := by
  unfold Obligations.RegisterInstructionsFrame
  intro rd rs rt i s t hi h
  have heff := effect_of_exec_next h
  have hrd : i.rd? = some rd := by rcases hi with rfl | rfl | rfl | rfl <;> rfl
  have hsame := heff.sameRun
  obtain ⟨v, rfl⟩ := heff.eq_writeReg hrd
  obtain ⟨hregs, hmem⟩ := s.writeReg_advance_frame rd v
  exact ⟨hregs, hmem, hsame⟩

/-- Settles O31: `lw` writes `rt` and nothing else. -/
theorem loadFrame : Obligations.LoadFrame := by
  unfold Obligations.LoadFrame
  intro rt rs imm s t h
  have heff := effect_of_exec_next h
  have hsame := heff.sameRun
  cases heff with
  | rFormat hf => cases hf
  | load =>
    obtain ⟨hregs, hmem⟩ := s.writeReg_advance_frame rt (s.memRead (accessKey s imm rs))
    exact ⟨hregs, hmem, hsame⟩

/-- Settles O32: `sw` writes the key at its effective address and nothing else. -/
theorem storeFrame : Obligations.StoreFrame := by
  unfold Obligations.StoreFrame
  intro rt rs imm s t h
  have heff := effect_of_exec_next h
  have hsame := heff.sameRun
  cases heff with
  | rFormat hf => cases hf
  | store => exact ⟨fun _ => rfl, fun k hk => s.memRead_memWrite_other _ hk, hsame⟩

/-- Settles O33: taken or not, `beq` moves the pc and nothing else. -/
theorem branchFrame : Obligations.BranchFrame := by
  unfold Obligations.BranchFrame
  intro rs rt imm s t h
  have heff := effect_of_exec_next h
  have hsame := heff.sameRun
  cases heff with
  | rFormat hf => cases hf
  | branchNotTaken | branchTaken => exact ⟨fun _ => rfl, fun _ => rfl, hsame⟩

/-- Settles O34: the index check is the first of an instruction's stops. -/
theorem registerIndexIsChecked : Obligations.RegisterIndexIsChecked := by
  unfold Obligations.RegisterIndexIsChecked
  exact fun i s r hr hle => (exec_eq_fault_iff i s _).2 (.inl ⟨rfl, r, hr, hle⟩)

/-- Settles O35: `ImmVal` decides by the range, and the second of an instruction's stops is its check. -/
theorem immediateIsConvertedOrRefused : Obligations.ImmediateIsConvertedOrRefused := by
  unfold Obligations.ImmediateIsConvertedOrRefused
  refine ⟨fun _ => rfl, fun k imm => ⟨fun h => ?_, fun h => ?_⟩, fun i s hop hlt himm => ?_, fun i s hf h => ?_,
    fun imm => ?_⟩
  · rw [immVal_eq_ok_iff, inRange_bits_iff]
    exact_mod_cast h
  · rw [immVal_eq_error_iff, ← Bool.not_eq_true, inRange_bits_iff]
    exact_mod_cast h
  · have hf : i.opcode.format ≠ .r := by rcases hop with h | h | h <;> rw [h] <;> decide
    exact (exec_eq_fault_iff i s _).2 (.inr (.inl ⟨rfl, hlt, hf, (immVal_eq_error_iff _ _).1 himm⟩))
  · rcases (exec_eq_fault_iff i s _).1 h with ⟨h, -⟩ | ⟨-, -, hf', -⟩ | ⟨h, -⟩
    · cases h
    · exact hf' hf
    · cases h
  · rw [immVal_eq_ok_iff, Config.defaultImmWidth, inRange_bits_iff]
    norm_num

/-- Settles O36: the pc of an effect, and the two ends of a taken branch. -/
theorem pcAdvances : Obligations.PcAdvances := by
  unfold Obligations.PcAdvances
  refine ⟨fun i s t h => ?_, fun rs rt imm s hrs hrt himm heq => ⟨fun hout => ?_, fun hend => ?_⟩⟩
  · rcases (effect_of_exec_next h).pc_eq with ⟨hop, heq, hpc⟩ | ⟨hnot, hpc⟩
    · exact ⟨fun hnot => absurd heq (hnot.resolve_left (not_not.2 hop)), fun _ _ => hpc⟩
    · exact ⟨fun _ => hpc, fun hop heq => absurd heq (hnot.resolve_left (not_not.2 hop))⟩
  · exact exec_beq_of_target_outside (indicesInRange_of_two_ops rfl hrs hrt) himm heq hout
  · rw [exec_beq_of_eq (indicesInRange_of_two_ops rfl hrs hrt) himm heq, hend,
      State.jump_of_mem_program (Int.natCast_nonneg _) le_rfl, Int.toNat_natCast]

/-- Settles O38: an accepted instruction has one stop left, a taken branch to a target outside the program. -/
theorem acceptedInstructionsComplete : Obligations.AcceptedInstructionsComplete := by
  unfold Obligations.AcceptedInstructionsComplete
  intro i s hwf htarget
  refine exec_next_of_wellFormed hwf ?_
  rintro rs rt imm rfl heq hout
  obtain ⟨h0, h1⟩ := htarget rfl heq
  exact hout.elim (not_lt.2 h0) (not_lt.2 h1)

/-- Settles O40: the stops of a step are those of its fetch and of its instruction, and each has a name of its own, so
that a name leaves one alternative. -/
theorem stepStopsExactlyWhereTheRulesSay : Obligations.StepStopsExactlyWhereTheRulesSay := by
  unfold Obligations.StepStopsExactlyWhereTheRulesSay
  intro s hpc
  simp only [step_eq_fault_iff hpc, exec_eq_fault_iff]
  refine ⟨?_, fun e => ?_, ?_, ?_, ?_, step_ne_refused s⟩
  · simp
  · simp [parse_eq_error_iff, decode]
  · simp
  · simp
  · simp [targetOutside]

/-- Settles O41: every step leaves alone what the launch supplies, so every run does. -/
theorem programNeverChanges : Obligations.ProgramNeverChanges := by
  unfold Obligations.ProgramNeverChanges
  exact fun s t h => h.sameRun

/-- Settles O49: by induction on the two lists, whose first cells must agree. -/
theorem canonicalMemoriesAreExtensional : Obligations.CanonicalMemoriesAreExtensional := by
  unfold Obligations.CanonicalMemoriesAreExtensional
  exact fun u m m' => Memory.ext_of_read

/-- Settles O53: a listed key reads its cell and any other key what the base gives, which for a supplied map is its
number, wrapped. -/
theorem launchMemoryIsTotal : Obligations.LaunchMemoryIsTotal := by
  unfold Obligations.LaunchMemoryIsTotal
  intro width immWidth prog targets regs mem k
  refine ⟨fun b v => Memory.read_of_mem, fun hnot => ⟨fun v => Memory.read_of_not_listed hnot, ?_⟩⟩
  intro n M0 hM0 hw hin
  calc (State.launch width immWidth prog targets regs (.supplied n) mem).memRead k
    _ = width.wrap (Config.launchMemory n k) := Memory.read_of_not_listed hnot
    _ = M0 k := by rw [hM0 k, wrap_of_inRange hw hin]

/-- Settles O39: what is fetched is what the line decodes to. -/
theorem stepRunsTheDecodedInstruction : Obligations.StepRunsTheDecodedInstruction := by
  unfold Obligations.StepRunsTheDecodedInstruction
  exact fun s line i hline hdec => step_of_fetch (State.fetch_eq_ok_of_decode hline hdec)

/-- Settles O43: the premises are the fields of the invariant, and `State.reset` is a launch that meets them. -/
theorem launchStatesHaveTheInvariant : Obligations.LaunchStatesHaveTheInvariant := by
  unfold Obligations.LaunchStatesHaveTheInvariant
  refine ⟨fun width immWidth prog targets regs memBase mem => State.launch_inv prog targets,
    State.launch_inv [] [] (by decide) (fun v hv => ?_) (fun v hv => ?_) rfl nofun⟩
  · rw [List.eq_of_mem_replicate hv]; exact inRange_zero _
  · cases hv; exact inRange_zero _

/-- Settles O44: the fields of the launch that `State.reset` is. -/
theorem resetState : Obligations.ResetState := by
  unfold Obligations.ResetState
  exact ⟨rfl, rfl, rfl, List.length_replicate, rfl, rfl, rfl, State.readReg_reset, fun _ => rfl⟩

/-- Settles O46: a register equals itself, so the branch is taken, and it leads to the line it stands on. -/
theorem branchToItselfLoops : Obligations.BranchToItselfLoops := by
  unfold Obligations.BranchToItselfLoops
  intro s line r imm hline hdec hr himm htarget
  calc step s
    _ = exec (.beq r r imm) s := step_of_fetch (State.fetch_eq_ok_of_decode hline hdec)
    _ = s.jump (s.branchTarget s.pc imm) := exec_beq_of_eq (indicesInRange_of_two_ops rfl hr hr) himm rfl
    _ = s.jump s.pc := by rw [htarget]
    _ = .next s := State.jump_of_mem_program (Int.natCast_nonneg _)
      (Int.ofNat_le.2 (List.getElem?_eq_some_iff.1 hline).1.le)

/-- Settles O48: what a canonical memory reads after a write, at the key written and at any other. -/
theorem memoryIsAMapOfWholeValues : Obligations.MemoryIsAMapOfWholeValues := by
  unfold Obligations.MemoryIsAMapOfWholeValues
  exact fun s k v hwf => ⟨State.memRead_memWrite_self hwf k v, fun _ hk => s.memRead_memWrite_other v hk⟩

end

section
/-! PROOFS. The optional sub-reason of `MalformedInstruction` (60_exceptions.md, R140): what the diagnosis says at each
check of `Parse`. -/

namespace Sys2Proof

/-! ## One operand token

Both the diagnosis and the extraction rule go on to the next token exactly when this one reads. -/

/-- No operand token, no sub-reason. -/
@[simp] theorem badOperand?_nil : badOperand? [] = none := rfl

/-- The diagnosis of a register token and those after it. -/
theorem badOperand?_register_isSome_iff (t : Line) (rest : List (Bool × Line)) :
    (badOperand? ((true, t) :: rest)).isSome = true ↔
      ∀ n, regToken t = .ok n → (badOperand? rest).isSome = true := by
  cases h : regToken t <;> simp [badOperand?, h, Except.toOption]

/-- The diagnosis of an immediate token and those after it. -/
theorem badOperand?_immediate_isSome_iff (t : Line) (rest : List (Bool × Line)) :
    (badOperand? ((false, t) :: rest)).isSome = true ↔
      ∀ n, immToken t = .ok n → (badOperand? rest).isSome = true := by
  cases h : immToken t <;> simp [badOperand?, h, Except.toOption]

/-- A computation that can only fail as malformed, and what follows it. -/
theorem bind_eq_malformed_iff {α β : Type} {x : Except BlockError α} (hx : ∀ e, x = .error e → e = .malformedInstruction)
    (f : α → Except BlockError β) :
    (x >>= f) = .error .malformedInstruction ↔ ∀ a, x = .ok a → f a = .error .malformedInstruction := by
  cases x with
  | error e => cases hx e rfl; simp [bind, Except.bind]
  | ok a => simp [bind, Except.bind]

/-- Extraction from a register token (R46) and what follows it. -/
theorem regToken_bind_eq_malformed_iff {β : Type} (t : Line) (f : Nat → Except BlockError β) :
    (regToken t >>= f) = .error .malformedInstruction ↔
      ∀ n, regToken t = .ok n → f n = .error .malformedInstruction :=
  bind_eq_malformed_iff (fun _ => regToken_error) f

/-- Extraction from an immediate token (R47) and what follows it. -/
theorem immToken_bind_eq_malformed_iff {β : Type} (t : Line) (f : Int → Except BlockError β) :
    (immToken t >>= f) = .error .malformedInstruction ↔
      ∀ n, immToken t = .ok n → f n = .error .malformedInstruction :=
  bind_eq_malformed_iff (fun _ => immToken_error) f

/-! ## Three operand tokens -/

/-- The three operand tokens of a format, each with whether it is a register token (R41, R42, R43). -/
def operandTokens (f : Format) (t1 t2 t3 : Line) : List (Bool × Line) :=
  match f with
  | .r => [(true, t1), (true, t2), (true, t3)]
  | .m => [(true, t1), (false, t2), (true, t3)]
  | .b => [(true, t1), (true, t2), (false, t3)]

/-- The diagnosis finds a bad operand token exactly where the extraction rule of the opcode fails. -/
theorem badOperand?_isSome_iff_decodeOperands (op : Opcode) (t1 t2 t3 : Line) :
    (badOperand? (operandTokens op.format t1 t2 t3)).isSome = true ↔
      decodeOperands op t1 t2 t3 = .error .malformedInstruction := by
  cases op <;>
    simp only [Opcode.format, operandTokens, decodeOperands, badOperand?_register_isSome_iff,
      badOperand?_immediate_isSome_iff, regToken_bind_eq_malformed_iff, immToken_bind_eq_malformed_iff, badOperand?_nil,
      Option.isSome_none, Bool.false_eq_true, pure, Except.pure, reduceCtorEq]

/-- The diagnosis of operand tokens never speaks of their number. -/
theorem badOperand?_ne_tokenCount (toks : List (Bool × Line)) : badOperand? toks ≠ some .tokenCount := by
  fun_induction badOperand? toks with
  | case1 => nofun
  | case2 => nofun
  | case3 t rest _ ih => exact ih
  | case4 => nofun
  | case5 t rest _ ih => exact ih

/-! ## The diagnosis at each check of `Parse` -/

variable {line : Line}

/-- No token. -/
theorem malformedReason_of_no_token (ht : tokenize line = []) : malformedReason line = some .tokenCount := by
  simp only [malformedReason, ht]

/-- An unknown opcode is not diagnosed. -/
theorem malformedReason_of_not_name {t0 : Line} {rest : List Line} (ht : tokenize line = t0 :: rest)
    (h : ∀ op : Opcode, op.name ≠ t0) : malformedReason line = none := by
  simp only [malformedReason, ht, opcodeToken_of_not_name h]

/-- A known opcode with another number of operand tokens than three. -/
theorem malformedReason_of_length_ne_three {op : Opcode} {rest : List Line} (ht : tokenize line = op.name :: rest)
    (h : rest.length ≠ 3) : malformedReason line = some .tokenCount := by
  simp only [malformedReason, ht, opcodeToken_name]
  split
  · exact absurd rfl h
  · rfl

/-- A known opcode with three operand tokens. -/
theorem malformedReason_of_four_tokens {op : Opcode} {t1 t2 t3 : Line} (ht : tokenize line = [op.name, t1, t2, t3]) :
    malformedReason line = badOperand? (operandTokens op.format t1 t2 t3) := by
  simp only [malformedReason, ht, opcodeToken_name]
  cases op.format <;> rfl

/-- The four ways a list of tokens goes through the checks of R50. -/
theorem tokens_cases (t : List Line) :
    t = [] ∨ (∃ t0 rest, t = t0 :: rest ∧ ∀ op : Opcode, op.name ≠ t0) ∨
      (∃ (op : Opcode) (rest : List Line), t = op.name :: rest ∧ rest.length ≠ 3) ∨
      ∃ (op : Opcode) (t1 t2 t3 : Line), t = [op.name, t1, t2, t3] := by
  cases t with
  | nil => exact .inl rfl
  | cons t0 rest =>
    by_cases hname : ∃ op : Opcode, op.name = t0
    · obtain ⟨op, rfl⟩ := hname
      by_cases hlen : rest.length = 3
      · obtain ⟨t1, t2, t3, rfl⟩ := List.length_eq_three.1 hlen
        exact .inr (.inr (.inr ⟨op, t1, t2, t3, rfl⟩))
      · exact .inr (.inr (.inl ⟨op, rest, rfl, hlen⟩))
    · exact .inr (.inl ⟨t0, rest, rfl, not_exists.1 hname⟩)

/-- There is a sub-reason exactly on a malformed line (R140). -/
theorem malformedReason_isSome_iff (line : Line) :
    (malformedReason line).isSome = true ↔ parse line = .error .malformedInstruction := by
  rw [parse_eq_error_iff]
  rcases tokens_cases (tokenize line) with ht | ⟨t0, rest, ht, hname⟩ | ⟨op, rest, ht, hlen⟩ | ⟨op, t1, t2, t3, ht⟩
  · simp [malformedReason_of_no_token ht, ht, decodeTokens]
  · simp [malformedReason_of_not_name ht hname, ht, decodeTokens_of_not_name rest hname]
  · simp [malformedReason_of_length_ne_three ht hlen, ht, decodeTokens_of_length_ne_three op hlen]
  · simp only [malformedReason_of_four_tokens ht, badOperand?_isSome_iff_decodeOperands, ht, decodeTokens,
      opcodeToken_name]

/-- The sub-reason `tokenCount` is that of the two checks that count tokens (R55, R56). -/
theorem malformedReason_eq_tokenCount_iff (line : Line) :
    malformedReason line = some .tokenCount ↔
      tokenize line = [] ∨ ∃ (op : Opcode) (rest : List Line), tokenize line = op.name :: rest ∧ rest.length ≠ 3 := by
  refine ⟨fun h => ?_, ?_⟩
  · rcases tokens_cases (tokenize line) with ht | ⟨t0, rest, ht, hname⟩ | hcount | ⟨op, t1, t2, t3, ht⟩
    · exact .inl ht
    · simp [malformedReason_of_not_name ht hname] at h
    · exact .inr hcount
    · exact absurd ((malformedReason_of_four_tokens ht).symm.trans h) (badOperand?_ne_tokenCount _)
  · rintro (ht | ⟨op, rest, ht, hlen⟩)
    · exact malformedReason_of_no_token ht
    · exact malformedReason_of_length_ne_three ht hlen

end Sys2Proof

open Sys2Proof

/-- Settles O10: by the checks of `Parse` in their order; on three operand tokens both read them one after the other. -/
theorem diagnosisAgreesWithParse : Obligations.DiagnosisAgreesWithParse := by
  unfold Obligations.DiagnosisAgreesWithParse
  exact fun line => ⟨malformedReason_isSome_iff line, malformedReason_eq_tokenCount_iff line⟩

end

section
/-! PROOFS. What stands at the pc of a state that a run reaches (44_caller_composition.md, R132, R133). -/

namespace Sys2Proof.Machine

/-- An instruction stops with one of three names (R125, R127, R131). -/
theorem fault_of_exec {i : Instr} {s : State} {f : Fault} (h : exec i s = .fault f) :
    f = .registerIndexOutOfRange ∨ f = .immediateOutOfRange ∨ f = .pcOutOfRange := by
  rcases (exec_eq_fault_iff i s f).1 h with ⟨hf, -⟩ | ⟨hf, -⟩ | ⟨hf, -⟩
  · exact .inl hf
  · exact .inr (.inl hf)
  · exact .inr (.inr hf)

/-- Where the pc is in the program or one past it, a step that stops is at the end of the run or has one of the four
names of R133. -/
theorem fault_of_step {s : State} {f : Fault} (hpc : s.pc ≤ s.prog.length) (h : step s = .fault f) :
    s.isFinal ∨ (∃ e, f = .parseError e) ∨
      f = .registerIndexOutOfRange ∨ f = .immediateOutOfRange ∨ f = .pcOutOfRange := by
  rcases (step_eq_fault_iff hpc f).1 h with ⟨hfinal, -⟩ | ⟨_, e, -, -, hf⟩ | ⟨_, i, -, -, hexec⟩
  · exact .inl hfinal
  · exact .inr (.inl ⟨e, hf⟩)
  · exact .inr (.inr (fault_of_exec hexec))

end Sys2Proof.Machine

open Sys2Proof Sys2Proof.Machine

/-- Settles O45: a run keeps the invariant, which has the pc in the program or one past it, and there no step is refused
and every stop that is not the end has one of the four names. -/
theorem reachableStatesHaveTheInvariant : Obligations.ReachableStatesHaveTheInvariant := by
  unfold Obligations.ReachableStatesHaveTheInvariant
  intro s t hs ht
  have hinv : t.Inv := ht.inv hs
  refine ⟨hinv, ?_⟩
  cases hstep : step t with
  | next u => exact .inr (.inl ⟨u, rfl⟩)
  | refused r => exact absurd hstep (step_ne_refused t r)
  | fault f =>
    rcases fault_of_step hinv.pc_in_program hstep with hfinal | ⟨e, rfl⟩ | rfl | rfl | rfl
    · exact .inl hfinal
    · exact .inr (.inr (.inl ⟨e, rfl⟩))
    · exact .inr (.inr (.inr (.inl rfl)))
    · exact .inr (.inr (.inr (.inr (.inl rfl))))
    · exact .inr (.inr (.inr (.inr (.inr rfl))))

end

section
/-! PROOFS. The round trip through the canonical spelling (30_encoding.md, R64): each operand is written as one token
that reads back, the separators between them end the tokens, and the extraction rule puts the operands where they were. -/

namespace Sys2Proof

/-! ## One operand -/

/-- An opcode's name is one token (R48). -/
@[simp] theorem tokenize_name (op : Opcode) : tokenize op.name = [op.name] := by
  cases op <;> decide

/-- A character without white space or punctuation in front of the digits of a number makes one token with them. -/
theorem tokenize_cons_decimalDigits {c : Char} (hc : isWhitespace c = false ∧ isPunctuation c = false) (n : Nat) :
    tokenize (c :: decimalDigits n) = [c :: decimalDigits n] := by
  refine tokenize_of_run (List.cons_ne_nil _ _) (List.forall_mem_cons.2 ⟨hc, fun d hd => ?_⟩)
  obtain ⟨hws, hpunct, -⟩ := not_special_of_isDigit (decimalDigits_digits n d hd)
  exact ⟨hws, hpunct⟩

/-- A register operand is written as one token. -/
@[simp] theorem tokenize_encodeReg (n : Nat) : tokenize (encodeReg n) = [encodeReg n] :=
  tokenize_cons_decimalDigits (by decide) n

/-- An immediate operand is written as one token, with its sign. -/
@[simp] theorem tokenize_encodeImm (n : Int) : tokenize (encodeImm n) = [encodeImm n] := by
  cases n with
  | ofNat m => exact tokenize_decimalDigits m
  | negSucc m => exact tokenize_cons_decimalDigits (by decide) (m + 1)

/-- A register operand reads back (R46). -/
@[simp] theorem regToken_encodeReg (n : Nat) : regToken (encodeReg n) = .ok n :=
  (regToken_eq_ok_iff _ n).2 ⟨_, rfl, decimal?_decimalDigits n⟩

/-- An immediate operand reads back, with its sign (R47). -/
@[simp] theorem immToken_encodeImm (n : Int) : immToken (encodeImm n) = .ok n := by
  rw [immToken_eq_ok_iff]
  cases n with
  | ofNat m => exact ⟨_, m, decimal?_decimalDigits m, .inr ⟨.inl rfl, rfl⟩⟩
  | negSucc m => exact ⟨_, m + 1, decimal?_decimalDigits (m + 1), .inl ⟨rfl, rfl⟩⟩

/-! ## A whole line -/

/-- A comma and a space end a token and make none (R44, R45). -/
theorem tokenize_append_commaSpace (before after : Line) :
    tokenize (before ++ commaSpace ++ after) = tokenize before ++ tokenize after := by
  have hcomma : tokenize (before ++ ',' :: ' ' :: after) = tokenize before ++ tokenize (' ' :: after) :=
    tokenize_append_separator (by decide) _ _
  have hspace : tokenize (' ' :: after) = tokenize after := tokenize_separator_cons (by decide) after
  rw [List.append_assoc, commaSpace, List.cons_append, List.singleton_append, hcomma, hspace]

/-- The tokens of a line of format R or B are the opcode's name and those of the three operands. -/
theorem tokenize_encodeList (op : Opcode) (a b c : Line) :
    tokenize (encodeList op a b c) = op.name :: (tokenize a ++ tokenize b ++ tokenize c) := by
  rw [encodeList, tokenize_append_separator (by decide), tokenize_append_commaSpace, tokenize_append_commaSpace,
    tokenize_name, List.singleton_append]

/-- The tokens of a line of format M are the opcode's name and the three operands. -/
theorem tokenize_encodeMem (op : Opcode) (rt : Nat) (imm : Int) (rs : Nat) :
    tokenize (encodeMem op rt imm rs) = [op.name, encodeReg rt, encodeImm imm, encodeReg rs] := by
  have hclose : tokenize (encodeReg rs ++ [')']) = [encodeReg rs] := by
    rw [tokenize_append_separator (by decide), tokenize_encodeReg, tokenize_nil, List.append_nil]
  rw [encodeMem, tokenize_append_separator (by decide), tokenize_append_separator (by decide),
    tokenize_append_commaSpace, hclose, tokenize_name, tokenize_encodeReg, tokenize_encodeImm]
  rfl

/-- A known opcode and three operand tokens: the decoder is the extraction rule of the opcode (R50). -/
theorem decode_of_four_tokens {line : Line} {op : Opcode} {t1 t2 t3 : Line}
    (ht : tokenize line = [op.name, t1, t2, t3]) : decode line = decodeOperands op t1 t2 t3 := by
  simp only [decode, ht, decodeTokens, opcodeToken_name]

/-- A line of format R or B whose operands are one token each decodes by the extraction rule of its opcode. -/
theorem decode_encodeList (op : Opcode) {a b c : Line} (ha : tokenize a = [a]) (hb : tokenize b = [b])
    (hc : tokenize c = [c]) : decode (encodeList op a b c) = decodeOperands op a b c :=
  decode_of_four_tokens (by rw [tokenize_encodeList, ha, hb, hc]; rfl)

/-- A line of format M decodes by the extraction rule of its opcode. -/
theorem decode_encodeMem (op : Opcode) (rt : Nat) (imm : Int) (rs : Nat) :
    decode (encodeMem op rt imm rs) = decodeOperands op (encodeReg rt) (encodeImm imm) (encodeReg rs) :=
  decode_of_four_tokens (tokenize_encodeMem op rt imm rs)

/-- The canonical line of an instruction decodes to it. -/
@[simp] theorem decode_encode (i : Instr) : decode (encode i) = .ok i := by
  cases i with
  | add rd rs rt | sub rd rs rt | and rd rs rt | or rd rs rt =>
    rw [encode, decode_encodeList _ (tokenize_encodeReg rd) (tokenize_encodeReg rs) (tokenize_encodeReg rt)]
    simp only [decodeOperands, regToken_encodeReg]
    rfl
  | lw rt imm rs | sw rt imm rs =>
    rw [encode, decode_encodeMem]
    simp only [decodeOperands, regToken_encodeReg, immToken_encodeImm]
    rfl
  | beq rs rt imm =>
    rw [encode, decode_encodeList _ (tokenize_encodeReg rs) (tokenize_encodeReg rt) (tokenize_encodeImm imm)]
    simp only [decodeOperands, regToken_encodeReg, immToken_encodeImm]
    rfl

end Sys2Proof

open Sys2Proof

/-- Settles O11: the tokens of the canonical line are the opcode's name and the three operands, and each reads back. -/
theorem decodeOfEncodeIsTheInstruction : Obligations.DecodeOfEncodeIsTheInstruction := by
  unfold Obligations.DecodeOfEncodeIsTheInstruction
  exact decode_encode

/-- Settles O1: nine closed lines, each evaluated; four of them are the worked examples of R41 to R43 (O2). -/
theorem parseGivesTheSpecExamples : Obligations.ParseGivesTheSpecExamples := by
  unfold Obligations.ParseGivesTheSpecExamples
  obtain ⟨-, -, hlw, hsw, hadd, hbeq⟩ := operandExtractionFollowsFormat
  exact ⟨hadd, by decide, hlw, hsw, hbeq, by decide, by decide, by decide, by decide⟩

end
